-- ==== Sys2Proof/Word.lean ====
section
/-! DEFINITION. The word types of the CHIP-8 core. All values are unsigned (R12). -/

namespace Sys2Proof

/-- An 8-bit value: a byte of MEM, a register V0 to VF, a timer (R20). -/
abbrev Byte := BitVec 8

/-- A 16-bit value: an instruction word, pc, I, a stack entry (R20, R70). -/
abbrev Word := BitVec 16

/-- The 12-bit address field nnn of an instruction word (R71, R73). -/
abbrev Addr := BitVec 12

/-- A 4-bit field: a register index x or y, a row count n (R71, R73). -/
abbrev Nib := BitVec 4

end Sys2Proof
end

