-- ==== Sys2Proof/Syntax.lean ====
section
/-! DEFINITION. The instruction set as syntax: one constructor per row of the opcode map (R82), its arguments
the operand fields the row names (R73). The ignored low nibble of families 5 and 9 is no operand (R81). -/

namespace Sys2Proof

/-- A decoded CHIP-8 instruction; the constructors stand in the order of the rows of R82. -/
inductive Instr where
  /-- CLS, 00E0 (R145). -/
  | cls
  /-- RET, 00EE (R122). -/
  | ret
  /-- SYS nnn, 0nnn other than 00E0 and 00EE (R76, R121). -/
  | sys (nnn : Addr)
  /-- JP nnn, 1nnn (R123). -/
  | jp (nnn : Addr)
  /-- CALL nnn, 2nnn (R124). -/
  | call (nnn : Addr)
  /-- SE Vx, kk, 3xkk (R126). -/
  | seVB (x : Nib) (kk : Byte)
  /-- SNE Vx, kk, 4xkk (R127). -/
  | sneVB (x : Nib) (kk : Byte)
  /-- SE Vx, Vy, 5xy? (R128). -/
  | seVV (x y : Nib)
  /-- LD Vx, kk, 6xkk (R160). -/
  | ldV (x : Nib) (kk : Byte)
  /-- ADD Vx, kk, 7xkk (R161). -/
  | addV (x : Nib) (kk : Byte)
  /-- LD Vx, Vy, 8xy0 (R163). -/
  | ldVV (x y : Nib)
  /-- OR Vx, Vy, 8xy1 (R164). -/
  | or (x y : Nib)
  /-- AND Vx, Vy, 8xy2 (R165). -/
  | and (x y : Nib)
  /-- XOR Vx, Vy, 8xy3 (R166). -/
  | xor (x y : Nib)
  /-- ADD Vx, Vy, 8xy4 (R167). -/
  | addVV (x y : Nib)
  /-- SUB Vx, Vy, 8xy5 (R168). -/
  | sub (x y : Nib)
  /-- SHR Vx {, Vy}, 8xy6 (R169). -/
  | shr (x y : Nib)
  /-- SUBN Vx, Vy, 8xy7 (R170). -/
  | subn (x y : Nib)
  /-- SHL Vx {, Vy}, 8xyE (R171). -/
  | shl (x y : Nib)
  /-- SNE Vx, Vy, 9xy? (R129). -/
  | sneVV (x y : Nib)
  /-- LD I, nnn, Annn (R162). -/
  | setI (nnn : Addr)
  /-- JP V0, nnn, Bnnn (R125). -/
  | jpV0 (nnn : Addr)
  /-- RND Vx, kk, Cxkk (R172). -/
  | rnd (x : Nib) (kk : Byte)
  /-- DRW Vx, Vy, n, Dxyn (R146). -/
  | drw (x y n : Nib)
  /-- SKP Vx, Ex9E (R204). -/
  | skp (x : Nib)
  /-- SKNP Vx, ExA1 (R205). -/
  | sknp (x : Nib)
  /-- LD Vx, DT, Fx07 (R200). -/
  | ldVDT (x : Nib)
  /-- LD Vx, K, Fx0A (R203). -/
  | ldK (x : Nib)
  /-- LD DT, Vx, Fx15 (R201). -/
  | ldDT (x : Nib)
  /-- LD ST, Vx, Fx18 (R202). -/
  | ldST (x : Nib)
  /-- ADD I, Vx, Fx1E (R190). -/
  | addI (x : Nib)
  /-- LD F, Vx, Fx29 (R191). -/
  | ldF (x : Nib)
  /-- LD B, Vx, Fx33 (R192). -/
  | ldB (x : Nib)
  /-- LD [I], Vx, Fx55 (R193). -/
  | ldIV (x : Nib)
  /-- LD Vx, [I], Fx65 (R194). -/
  | ldVI (x : Nib)
  deriving DecidableEq, Repr

end Sys2Proof
end

