-- ==== Sys2Proof/WellFormed.lean ====
section
/-! DEFINITION. Which instruction terms are instructions of the hardware. The operand types carry every
width; the one check left is that SYS is never the whole-word literals CLS and RET (R75, R76). -/

namespace Sys2Proof

/-- A term the decoder can yield: SYS with nnn = 0x0E0 or 0x0EE would be the words of CLS and RET (R75). -/
def Instr.wellFormed : Instr → Bool
  | .sys nnn => nnn != 0x0E0#12 && nnn != 0x0EE#12
  | _ => true

end Sys2Proof
end

