-- ==== Sys2Proof/Decode.lean ====
section
/-! DEFINITION. The decoder (R70 to R84), total on any bytes, and after it the encoder of the same map. -/

namespace Sys2Proof

/-- What the decoder makes of a word: one of the 35 forms, or UNKNOWN carrying the raw word (R74). -/
inductive Operation where
  | op (i : Instr)
  | unknown (word : Word)
  deriving DecidableEq, Repr

/-- f = word[15:12], the family nibble (R71). -/
def Field.f (w : Word) : Nib := w.extractLsb' 12 4

/-- x = word[11:8], register index X (R71). -/
def Field.x (w : Word) : Nib := w.extractLsb' 8 4

/-- y = word[7:4], register index Y (R71). -/
def Field.y (w : Word) : Nib := w.extractLsb' 4 4

/-- n = word[3:0], nibble count or function nibble (R71). -/
def Field.n (w : Word) : Nib := w.extractLsb' 0 4

/-- kk = word[7:0], immediate or function byte (R71). -/
def Field.kk (w : Word) : Byte := w.extractLsb' 0 8

/-- nnn = word[11:0], memory address (R71). -/
def Field.nnn (w : Word) : Addr := w.extractLsb' 0 12

/-- Family 8 decodes on the low nibble (R78). -/
def decodeFamily8 (w : Word) : Operation :=
  match Field.n w with
  | 0x0#4 => .op (.ldVV (Field.x w) (Field.y w))
  | 0x1#4 => .op (.or (Field.x w) (Field.y w))
  | 0x2#4 => .op (.and (Field.x w) (Field.y w))
  | 0x3#4 => .op (.xor (Field.x w) (Field.y w))
  | 0x4#4 => .op (.addVV (Field.x w) (Field.y w))
  | 0x5#4 => .op (.sub (Field.x w) (Field.y w))
  | 0x6#4 => .op (.shr (Field.x w) (Field.y w))
  | 0x7#4 => .op (.subn (Field.x w) (Field.y w))
  | 0xE#4 => .op (.shl (Field.x w) (Field.y w))
  | _ => .unknown w

/-- Family E decodes on the low byte (R79). -/
def decodeFamilyE (w : Word) : Operation :=
  match Field.kk w with
  | 0x9E#8 => .op (.skp (Field.x w))
  | 0xA1#8 => .op (.sknp (Field.x w))
  | _ => .unknown w

/-- Family F decodes on the low byte (R80). -/
def decodeFamilyF (w : Word) : Operation :=
  match Field.kk w with
  | 0x07#8 => .op (.ldVDT (Field.x w))
  | 0x0A#8 => .op (.ldK (Field.x w))
  | 0x15#8 => .op (.ldDT (Field.x w))
  | 0x18#8 => .op (.ldST (Field.x w))
  | 0x1E#8 => .op (.addI (Field.x w))
  | 0x29#8 => .op (.ldF (Field.x w))
  | 0x33#8 => .op (.ldB (Field.x w))
  | 0x55#8 => .op (.ldIV (Field.x w))
  | 0x65#8 => .op (.ldVI (Field.x w))
  | _ => .unknown w

/-- The dispatch on the family nibble, after the whole-word literals (R74). UNVERIFIED (log 12): the family and
function values beyond 00E0, 00EE, 1nnn and 2nnn are general knowledge in the spec. -/
def decodeFamily (w : Word) : Operation :=
  match Field.f w with
  | 0x0#4 => .op (.sys (Field.nnn w))
  | 0x1#4 => .op (.jp (Field.nnn w))
  | 0x2#4 => .op (.call (Field.nnn w))
  | 0x3#4 => .op (.seVB (Field.x w) (Field.kk w))
  | 0x4#4 => .op (.sneVB (Field.x w) (Field.kk w))
  | 0x5#4 => .op (.seVV (Field.x w) (Field.y w))
  | 0x6#4 => .op (.ldV (Field.x w) (Field.kk w))
  | 0x7#4 => .op (.addV (Field.x w) (Field.kk w))
  | 0x8#4 => decodeFamily8 w
  | 0x9#4 => .op (.sneVV (Field.x w) (Field.y w))
  | 0xA#4 => .op (.setI (Field.nnn w))
  | 0xB#4 => .op (.jpV0 (Field.nnn w))
  | 0xC#4 => .op (.rnd (Field.x w) (Field.kk w))
  | 0xD#4 => .op (.drw (Field.x w) (Field.y w) (Field.n w))
  | 0xE#4 => decodeFamilyE w
  | _ => decodeFamilyF w

/-- The decode algorithm, a total function of the word alone (R74): 00E0 and 00EE first, on all 16 bits (R75). -/
def decodeWord (w : Word) : Operation :=
  if w = 0x00E0#16 then .op .cls
  else if w = 0x00EE#16 then .op .ret
  else decodeFamily w

/-- The big-endian word of two bytes: the byte at the lower address is word[15:8] (R53). -/
def wordOfBytes (hi lo : Byte) : Word := hi ++ lo

/-- What decoding a run of bytes gives: an instruction or an UNKNOWN word, each with the bytes after it, or the
name of the refusal that fewer than two bytes are left (R70: a decoder always consumes exactly 2 bytes). -/
inductive Decoded where
  | read (o : Operation) (rest : List Byte)
  | tooShort
  deriving DecidableEq, Repr

/-- The decoder over bytes, total on any list. -/
def decodeBytes : List Byte → Decoded
  | hi :: lo :: rest => .read (decodeWord (wordOfBytes hi lo)) rest
  | _ => .tooShort

/-- Format NNN (R72): f in bits 15..12, nnn in bits 11..0. -/
def formatNNN (f : Nib) (nnn : Addr) : Word := f ++ nnn

/-- Formats XKK and XFF (R72): f in bits 15..12, x in bits 11..8, kk or the function byte in bits 7..0. -/
def formatXKK (f x : Nib) (kk : Byte) : Word := f ++ (x ++ kk)

/-- Formats XYN, XYF and XY (R72): f, x, y, and in bits 3..0 n, the function nibble or the ignored nibble. -/
def formatXYN (f x y n : Nib) : Word := f ++ (x ++ (y ++ n))

/-- The word of an instruction, from the rows of R82; the ignored low nibble of families 5 and 9 is written 0 (R85). -/
def encode : Instr → Word
  | .cls => 0x00E0#16
  | .ret => 0x00EE#16
  | .sys nnn => formatNNN 0x0#4 nnn
  | .jp nnn => formatNNN 0x1#4 nnn
  | .call nnn => formatNNN 0x2#4 nnn
  | .seVB x kk => formatXKK 0x3#4 x kk
  | .sneVB x kk => formatXKK 0x4#4 x kk
  | .seVV x y => formatXYN 0x5#4 x y 0x0#4
  | .ldV x kk => formatXKK 0x6#4 x kk
  | .addV x kk => formatXKK 0x7#4 x kk
  | .ldVV x y => formatXYN 0x8#4 x y 0x0#4
  | .or x y => formatXYN 0x8#4 x y 0x1#4
  | .and x y => formatXYN 0x8#4 x y 0x2#4
  | .xor x y => formatXYN 0x8#4 x y 0x3#4
  | .addVV x y => formatXYN 0x8#4 x y 0x4#4
  | .sub x y => formatXYN 0x8#4 x y 0x5#4
  | .shr x y => formatXYN 0x8#4 x y 0x6#4
  | .subn x y => formatXYN 0x8#4 x y 0x7#4
  | .shl x y => formatXYN 0x8#4 x y 0xE#4
  | .sneVV x y => formatXYN 0x9#4 x y 0x0#4
  | .setI nnn => formatNNN 0xA#4 nnn
  | .jpV0 nnn => formatNNN 0xB#4 nnn
  | .rnd x kk => formatXKK 0xC#4 x kk
  | .drw x y n => formatXYN 0xD#4 x y n
  | .skp x => formatXKK 0xE#4 x 0x9E#8
  | .sknp x => formatXKK 0xE#4 x 0xA1#8
  | .ldVDT x => formatXKK 0xF#4 x 0x07#8
  | .ldK x => formatXKK 0xF#4 x 0x0A#8
  | .ldDT x => formatXKK 0xF#4 x 0x15#8
  | .ldST x => formatXKK 0xF#4 x 0x18#8
  | .addI x => formatXKK 0xF#4 x 0x1E#8
  | .ldF x => formatXKK 0xF#4 x 0x29#8
  | .ldB x => formatXKK 0xF#4 x 0x33#8
  | .ldIV x => formatXKK 0xF#4 x 0x55#8
  | .ldVI x => formatXKK 0xF#4 x 0x65#8

/-- The bits of its word that the decoder inspects to tell and to fill this form: all 16, but for SE_VV and
SNE_VV, whose low nibble is not inspected (R81). -/
def Instr.inspectedBits : Instr → Word
  | .seVV _ _ => 0xFFF0#16
  | .sneVV _ _ => 0xFFF0#16
  | _ => 0xFFFF#16

/-- The bytes of an instruction in memory order, big-endian (R53). -/
def encodeBytes (i : Instr) : List Byte := [(encode i).extractLsb' 8 8, (encode i).extractLsb' 0 8]

/-- The two bytes, as the hardware stores them, of the instruction whose bits the opcode table numbers as w:
the high byte at the lower address (R53); the bits above nbits are 0. -/
def tableBytes (nbits w : Nat) : List Byte :=
  let word : Word := BitVec.ofNat 16 (w % 2 ^ nbits)
  [word.extractLsb' 8 8, word.extractLsb' 0 8]

/-- The instruction the decoder reads from the word w of the opcode table, none for an UNKNOWN word. -/
def decodeTableWord (nbits w : Nat) : Option Instr :=
  match decodeBytes (tableBytes nbits w) with
  | .read (.op i) _ => some i
  | _ => none

end Sys2Proof
end

