-- ==== Sys2Proof/Config.lean ====
section
/-! DEFINITION. What is fixed for a machine (the parameters of R8), the shape of a host input, and the free
values of the host inputs. The values the parameters take at reset stand in Machine/Params.lean. -/

namespace Sys2Proof.Config

/-- EXEC_PROFILE: which decoded forms execute (R9, R11, D1). -/
inductive Profile where
  | source
  | complete
  deriving DecidableEq, Repr

/-- DISPLAY_VERTICAL_OVERFLOW: what a draw target at row 32 or more does (R142, D8). -/
inductive VerticalOverflow where
  | wrap
  | fault
  deriving DecidableEq, Repr

/-- SHIFT_SOURCE: which register SHR and SHL shift (R169, R171, D19). -/
inductive ShiftSource where
  | vx
  | vy
  deriving DecidableEq, Repr

/-- The parameters a machine is built with (R8). No step changes them. -/
structure Params where
  /-- EXEC_PROFILE. -/
  profile : Profile
  /-- FONT, 80 bytes (R33, D10). -/
  font : Vector Byte 80
  /-- DISPLAY_VERTICAL_OVERFLOW. -/
  verticalOverflow : VerticalOverflow
  /-- SHIFT_SOURCE (COMPLETE only). -/
  shiftSource : ShiftSource
  /-- LOAD_STORE_INCREMENTS_I (COMPLETE only, D20). -/
  loadStoreIncrementsI : Bool
  deriving DecidableEq, Repr

/-- What the host does before one step, under COMPLETE: how many timer_tick events since the step before
(R206), the keys as this step samples them (R207), and the random draw this step may use (R172). -/
structure HostInput where
  ticks : Nat
  keys : BitVec 16
  rnd : Byte
  deriving DecidableEq, Repr

/-- Free: how many timer_tick events the host delivers before a step whose input is not scripted (R206, U18).
Log 8, safe: no proof can know it. -/
opaque freeTicks : Nat → Nat

/-- Free: the keys a step samples when its input is not scripted (R207, U17). Log 8, safe. -/
opaque freeKeys : Nat → BitVec 16

/-- Free: the random draw of a step whose input is not scripted (R172, U16). Log 8, safe. -/
opaque freeRnd : Nat → Byte

end Sys2Proof.Config
end

