-- ==== Sys2Proof/Machine/Params.lean ====
section
/-! DEFINITION. The sizes of R6 and the values the parameters take at reset (R8). -/

namespace Sys2Proof.Machine

/-- MEM_SIZE (R6). -/
abbrev memSize : Nat := 4096

/-- FONT_BASE (R6). -/
abbrev fontBase : Nat := 0x050

/-- FONT_LEN (R6). -/
abbrev fontLen : Nat := 80

/-- PROG_BASE (R6). -/
abbrev progBase : Nat := 0x200

/-- STACK_DEPTH (R6). -/
abbrev stackDepth : Nat := 255

/-- The default FONT, digit by digit (R33). UNVERIFIED (log 2): the spec marks these bytes as general knowledge. -/
def defaultFont : Vector Byte 80 :=
  #v[0xF0, 0x90, 0x90, 0x90, 0xF0, 0x20, 0x60, 0x20, 0x20, 0x70, 0xF0, 0x10, 0xF0, 0x80, 0xF0,
     0xF0, 0x10, 0xF0, 0x10, 0xF0, 0x90, 0x90, 0xF0, 0x10, 0x10, 0xF0, 0x80, 0xF0, 0x10, 0xF0,
     0xF0, 0x80, 0xF0, 0x90, 0xF0, 0xF0, 0x10, 0x20, 0x40, 0x40, 0xF0, 0x90, 0xF0, 0x90, 0xF0,
     0xF0, 0x90, 0xF0, 0x10, 0xF0, 0xF0, 0x90, 0xF0, 0x90, 0x90, 0xE0, 0x90, 0xE0, 0x90, 0xE0,
     0xF0, 0x80, 0x80, 0x80, 0xF0, 0xE0, 0x90, 0x90, 0x90, 0xE0, 0xF0, 0x80, 0xF0, 0x80, 0xF0,
     0xF0, 0x80, 0xF0, 0x80, 0x80]

/-- The defaults of R8, the spec's own choices: SOURCE, WRAP, VX, false and the default FONT. DESIGN CHOICE of
the spec (log 1). -/
def defaultParams : Config.Params where
  profile := .source
  font := defaultFont
  verticalOverflow := .wrap
  shiftSource := .vx
  loadStoreIncrementsI := false

end Sys2Proof.Machine
end

