-- ==== Sys2Proof/Machine/Record.lean ====
section
/-! DEFINITION. The fault record and the status (R34, R220, R221), and the tags of the decoded forms (R82, R84). -/

namespace Sys2Proof.Machine

/-- The tag of a decoded form, named as in R82. -/
inductive Tag where
  | cls | ret | sys | jp | call | seVB | sneVB | seVV | ldV | addV
  | ldVV | or | and | xor | addVV | sub | shr | subn | shl | sneVV
  | setI | jpV0 | rnd | drw | skp | sknp | ldVDT | ldK | ldDT | ldST
  | addI | ldF | ldB | ldIV | ldVI
  deriving DecidableEq, Repr

/-- The seven faults of R220; all are fatal. -/
inductive FaultKind where
  /-- An access at an address of 4096 or more: Fetch, DRW, LD_B, LD_IV, LD_VI (R222). -/
  | outOfBounds
  /-- CALL with SP = 255 (R223). -/
  | stackOverflow
  /-- RET with SP = 0 (R224). -/
  | stackUnderflow
  /-- A decoded form the profile does not execute (R225). -/
  | unimplementedOpcode
  /-- An UNKNOWN word (R226). -/
  | unknownOpcode
  /-- DRW at a row of 32 or more, under DISPLAY_VERTICAL_OVERFLOW = FAULT only (R227). -/
  | framebufferOutOfBounds
  /-- SKP or SKNP with V[x] > 15, COMPLETE only (R227). -/
  | keyOutOfRange
  deriving DecidableEq, Repr

/-- The spec's own numbers for the faults (R220). -/
def FaultKind.code : FaultKind → Nat
  | .outOfBounds => 1
  | .stackOverflow => 2
  | .stackUnderflow => 3
  | .unimplementedOpcode => 4
  | .unknownOpcode => 5
  | .framebufferOutOfBounds => 6
  | .keyOutOfRange => 7

/-- The datum a record holds beside pc, word and op (R221). -/
inductive FaultInfo where
  | none
  /-- OutOfBounds: the offending address, never truncated (R52). -/
  | address (a : Nat)
  /-- FramebufferOutOfBounds: the target row and column (R142). -/
  | target (row col : Nat)
  /-- KeyOutOfRange: V[x] (R204). -/
  | key (value : Byte)
  deriving DecidableEq, Repr

/-- What `raise E(info)` names (R13): the fault and its own datum. -/
structure Cause where
  kind : FaultKind
  info : FaultInfo
  deriving DecidableEq, Repr

/-- The fault record Faulted(kind, pc, word, op, info) (R34, R221). -/
structure FaultRecord where
  kind : FaultKind
  /-- The address of the faulting instruction. -/
  pc : Word
  /-- The fetched word, none for a fetch fault. -/
  word : Option Word
  /-- The decoded tag, none for a fetch fault or UnknownOpcode. -/
  op : Option Tag
  info : FaultInfo
  deriving DecidableEq, Repr

/-- The status field (R34). -/
inductive Status where
  | running
  | faulted (record : FaultRecord)
  deriving DecidableEq, Repr

end Sys2Proof.Machine
end

