-- ==== Sys2Proof/Machine/State.lean ====
section
/-! DEFINITION. The state of the machine as plain data (R20), its value at reset (R36), and the reasons a step
has no next state. -/

namespace Sys2Proof.Machine

/-- The framebuffer: 32 rows of 64 pixels, true for on (R32). -/
abbrev Framebuffer := Vector (Vector Bool 64) 32

/-- The architectural state of R20, the parameters of R8, and last the model's own four fields, which carry the
host's inputs (log 8). -/
structure State where
  /-- MEM (R33, R50): the bytes that differ from the reset contents, in the canonical form `Memory.wf`. -/
  mem : List Host.Cell
  /-- V0 to VF (R21). -/
  v : Vector Byte 16
  /-- I, the index register (R25). -/
  i : Word
  /-- pc (R26). -/
  pc : Word
  /-- SP, the number of stack entries in use (R29). -/
  sp : Byte
  /-- S[0] to S[254] (R29). -/
  stack : Vector Word 255
  /-- FB (R32). -/
  fb : Framebuffer
  /-- status (R34). -/
  status : Status
  /-- DT, the delay timer, COMPLETE only (R35, log 10). -/
  dt : Byte
  /-- ST, the sound timer, COMPLETE only (R35, log 10). -/
  st : Byte
  /-- The parameters the machine was built with (R8). -/
  params : Config.Params
  /-- The model's own: the keys this step sampled (R207). Bit k is 1 exactly when key k is pressed. -/
  keys : BitVec 16
  /-- The model's own: the random draw this step may use (R172). -/
  rnd : Byte
  /-- The model's own: host inputs of the coming steps, the next step's first. -/
  script : List Config.HostInput
  /-- The model's own: how many host inputs were taken; it indexes the free ones. -/
  clock : Nat
  deriving DecidableEq, Repr

/-- Why a step ends with no next state by a fault. -/
inductive Fault where
  /-- Raised by `step` alone, at a state whose status is Faulted: a Faulted machine takes no further step (R109,
  U5 `stuck`). Safe. The seven faults of R220 are no such end: a step that raises one has a next state, with the
  status Faulted (R221, log 4). -/
  | halted
  deriving DecidableEq, Repr

/-- Why an instruction has no meaning. No step and no meaning of this model answers a refusal. -/
inductive Refusal where
  /-- An instruction not modelled yet: no arm of `exec` uses it. Safe. -/
  | notModelled (mnemonic : String)
  deriving DecidableEq, Repr

/-- What a meaning and a step answer. -/
abbrev Result := Host.Outcome State Fault Refusal

/-- The state after reset with no program (R36, R250, R253): every register 0, pc 0x200, the framebuffer off, the
parameters at their defaults (log 1). The four fields of the model's own are 0 or empty (DESIGN CHOICE, log 8). -/
def State.reset : State where
  mem := []
  v := Vector.replicate 16 0
  i := 0
  pc := 0x200
  sp := 0
  stack := Vector.replicate 255 0
  fb := Vector.replicate 32 (Vector.replicate 64 false)
  status := .running
  dt := 0
  st := 0
  params := defaultParams
  keys := 0
  rnd := 0
  script := []
  clock := 0

end Sys2Proof.Machine
end

