-- ==== Sys2Proof/Machine/Free.lean ====
section
/-! DEFINITION. The free values of a step that faults after the instruction may have written (R110, U4, U6): V, I,
pc, SP, S, MEM and FB are any value. Each is a constant with no body, applied to the state before the step and the
instruction, so that no two such faults need agree. Log 5, safe. -/

namespace Sys2Proof.Config

open Sys2Proof.Machine

/-- Free: V after such a fault. -/
opaque afterFaultV : State → Instr → Vector Byte 16

/-- Free: I after such a fault. -/
opaque afterFaultI : State → Instr → Word

/-- Free: pc after such a fault (the fault record keeps the faulting instruction's own address). -/
opaque afterFaultPc : State → Instr → Word

/-- Free: SP after such a fault. -/
opaque afterFaultSp : State → Instr → Byte

/-- Free: the call stack after such a fault. -/
opaque afterFaultStack : State → Instr → Vector Word 255

/-- Free: the byte of MEM at each address after such a fault. -/
opaque afterFaultByte : State → Instr → Nat → Byte

/-- Free: the framebuffer after such a fault. -/
opaque afterFaultFb : State → Instr → Framebuffer

end Sys2Proof.Config
end

