-- ==== Sys2Proof/Machine/Tags.lean ====
section
/-! DEFINITION. The tag of an instruction (R84) and which profile executes it (R106). -/

namespace Sys2Proof.Machine

/-- The tag of a decoded form (R84). -/
def tagOf : Instr → Tag
  | .cls => .cls
  | .ret => .ret
  | .sys _ => .sys
  | .jp _ => .jp
  | .call _ => .call
  | .seVB _ _ => .seVB
  | .sneVB _ _ => .sneVB
  | .seVV _ _ => .seVV
  | .ldV _ _ => .ldV
  | .addV _ _ => .addV
  | .ldVV _ _ => .ldVV
  | .or _ _ => .or
  | .and _ _ => .and
  | .xor _ _ => .xor
  | .addVV _ _ => .addVV
  | .sub _ _ => .sub
  | .shr _ _ => .shr
  | .subn _ _ => .subn
  | .shl _ _ => .shl
  | .sneVV _ _ => .sneVV
  | .setI _ => .setI
  | .jpV0 _ => .jpV0
  | .rnd _ _ => .rnd
  | .drw _ _ _ => .drw
  | .skp _ => .skp
  | .sknp _ => .sknp
  | .ldVDT _ => .ldVDT
  | .ldK _ => .ldK
  | .ldDT _ => .ldDT
  | .ldST _ => .ldST
  | .addI _ => .addI
  | .ldF _ => .ldF
  | .ldB _ => .ldB
  | .ldIV _ => .ldIV
  | .ldVI _ => .ldVI

/-- The eight forms the source executes (R9). -/
def sourceExecutes : Tag → Bool
  | .cls | .ret | .jp | .call | .drw | .ldV | .addV | .setI => true
  | _ => false

/-- Executed(profile, op) (R106): under SOURCE the eight forms of R9, under COMPLETE every form but SYS. -/
def executed : Config.Profile → Tag → Bool
  | .source, t => sourceExecutes t
  | .complete, t => t != .sys

end Sys2Proof.Machine
end

