-- ==== Sys2Proof/Machine/Ops.lean ====
section
/-! DEFINITION. The named operations over memory, registers, pc, stack and framebuffer, instruction fetch, and
taking a fault as one shared operation. -/

namespace Sys2Proof.Machine

/-! Memory: sparse cells over the reset contents. -/

/-- What an address no cell lists reads as: the reset contents, FONT at 0x050 to 0x09F and zero elsewhere (R36,
R58). -/
def Memory.resetByte (font : Vector Byte 80) (a : Nat) : Byte :=
  if h : fontBase ≤ a ∧ a < fontBase + fontLen then font[a - fontBase]'(by simp only [fontBase, fontLen] at h ⊢; omega) else 0

/-- The byte at an address: the listed one, else what the reset contents `bg` hold. -/
def Memory.read (bg : Nat → Byte) : List Host.Cell → Nat → Byte
  | [], a => bg a
  | c :: m, a => if c.1 = a then c.2 else Memory.read bg m a

/-- A cell put in front of the first one at a higher address. -/
def Memory.insert (a : Nat) (b : Byte) : List Host.Cell → List Host.Cell
  | [] => [(a, b)]
  | c :: m => if a < c.1 then (a, b) :: c :: m else c :: Memory.insert a b m

/-- A byte stored at an address; writing what the reset contents hold removes the cell. -/
def Memory.write (bg : Nat → Byte) (m : List Host.Cell) (a : Nat) (b : Byte) : List Host.Cell :=
  let others := m.filter (fun c => c.1 != a)
  if b = bg a then others else Memory.insert a b others

/-- The memory whose byte at each address below MEM_SIZE is the one given. -/
def Memory.ofBytes (bg f : Nat → Byte) : List Host.Cell :=
  (List.range memSize).filterMap (fun a => if f a = bg a then none else some (a, f a))

/-- The canonical form: addresses strictly rising and inside MEM, no cell equal to the reset contents. -/
abbrev Memory.wf (bg : Nat → Byte) (m : List Host.Cell) : Prop :=
  m.Pairwise (fun c d => c.1 < d.1) ∧ ∀ c ∈ m, c.1 < memSize ∧ c.2 ≠ bg c.1

/-- The reset contents of this machine's MEM. -/
def State.background (s : State) : Nat → Byte := Memory.resetByte s.params.font

/-- MEM[a]. -/
def State.byteAt (s : State) (a : Nat) : Byte := Memory.read s.background s.mem a

/-- MEM[a] <- b, with no bounds check: of the loader and of MemWrite. -/
def State.poke (s : State) (a : Nat) (b : Byte) : State :=
  { s with mem := Memory.write s.background s.mem a b }

/-- raise OutOfBounds(addr) (R52). -/
def outOfBoundsAt (a : Nat) : Cause := ⟨.outOfBounds, .address a⟩

/-- MemRead(addr, 1) (R52). -/
def State.memRead (s : State) (a : Nat) : Except Cause Byte :=
  if memSize ≤ a then .error (outOfBoundsAt a) else .ok (s.byteAt a)

/-- MemWrite(addr, 1, b) (R52). -/
def State.memWrite (s : State) (a : Nat) (b : Byte) : Except Cause State :=
  if memSize ≤ a then .error (outOfBoundsAt a) else .ok (s.poke a b)

/-- load(base, bytes): stops silently at the end of memory (R59). -/
def State.load (s : State) (base : Nat) : List Byte → State
  | [] => s
  | b :: bs => if memSize ≤ base then s else (s.poke base b).load (base + 1) bs

/-- Fetch(pc): big-endian, pc before pc + 1, no alignment check (R53, R54, R55). -/
def State.fetch (s : State) : Except Cause Word :=
  if memSize ≤ s.pc.toNat then .error (outOfBoundsAt s.pc.toNat)
  else if memSize ≤ s.pc.toNat + 1 then .error (outOfBoundsAt (s.pc.toNat + 1))
  else .ok (wordOfBytes (s.byteAt s.pc.toNat) (s.byteAt (s.pc.toNat + 1)))

/-- The word a fault record holds: what Fetch reads at pc, which is the fetch address while an instruction
executes (R101, R221, log 7). -/
def State.fetchedWord (s : State) : Option Word :=
  match s.fetch with
  | .ok w => some w
  | .error _ => none

/-! Registers and pc. -/

/-- VF's index (R22). -/
abbrev vf : Nib := 0xF#4

/-- V[x] (R13). -/
def State.reg (s : State) (x : Nib) : Byte := s.v[x.toNat]'x.isLt

/-- V[x] <- b (R13). -/
def State.setReg (s : State) (x : Nib) (b : Byte) : State :=
  { s with v := s.v.set x.toNat b x.isLt }

/-- I <- w (R13). -/
def State.setI (s : State) (w : Word) : State := { s with i := w }

/-- pc <- target (R13). -/
def State.jump (s : State) (target : Word) : State := { s with pc := target }

/-- pc <- pc + 2, the shared advance of the FALLTHROUGH forms, and `next` of R13 (R104). -/
def State.advance (s : State) : State := { s with pc := s.pc + 2 }

/-- `skip` or `next` of R13: pc + 4 if the condition holds, else pc + 2; the skipped word is not read (R131). -/
def State.skipIf (s : State) (c : Bool) : State := { s with pc := s.pc + (if c then 4 else 2) }

/-! The call stack (R29, R30). -/

/-- Push(w) (R30). -/
def State.push (s : State) (w : Word) : Except Cause State :=
  if h : s.sp.toNat < 255 then
    .ok { s with stack := s.stack.set s.sp.toNat w h, sp := s.sp + 1 }
  else .error ⟨.stackOverflow, .none⟩

/-- Pop() (R30). -/
def State.pop (s : State) : Except Cause (Word × State) :=
  if s.sp = 0 then .error ⟨.stackUnderflow, .none⟩
  else .ok (s.stack[s.sp.toNat - 1]'(by have := s.sp.isLt; omega), { s with sp := s.sp - 1 })

/-! The framebuffer (R32). -/

/-- FB[r][c]. -/
def Framebuffer.get (fb : Framebuffer) (r : Fin 32) (c : Fin 64) : Bool := (fb[r])[c]

/-- FB[r][c] <- not FB[r][c]. -/
def Framebuffer.toggle (fb : Framebuffer) (r : Fin 32) (c : Fin 64) : Framebuffer :=
  fb.set r.val ((fb[r]).set c.val (!(fb[r])[c]))

/-- clear(): every pixel off (R144). -/
def Framebuffer.cleared : Framebuffer := Vector.replicate 32 (Vector.replicate 64 false)

/-! Faults (R221). -/

/-- Fault entry: status <- Faulted(kind, pc, word, op, info); nothing else changes (R221). -/
def State.faulted (s : State) (word : Option Word) (op : Option Tag) (c : Cause) : State :=
  { s with status := .faulted ⟨c.kind, s.pc, word, op, c.info⟩ }

/-- An instruction raises a fault before it writes anything: every other field stays (R229, R110). -/
def raise (i : Instr) (c : Cause) (s : State) : Result :=
  .next (s.faulted s.fetchedWord (some (tagOf i)) c)

/-- An instruction raises a fault after it may have written: V, I, pc, SP, S, MEM and FB are any value (R110, U4,
log 5). -/
def raiseUnspecified (i : Instr) (c : Cause) (s : State) : Result :=
  .next { s.faulted s.fetchedWord (some (tagOf i)) c with
    v := Config.afterFaultV s i
    i := Config.afterFaultI s i
    pc := Config.afterFaultPc s i
    sp := Config.afterFaultSp s i
    stack := Config.afterFaultStack s i
    mem := Memory.ofBytes s.background (Config.afterFaultByte s i)
    fb := Config.afterFaultFb s i }

/-- The step's test of the profile before Execute(op): a form the profile does not execute raises
UnimplementedOpcode (R100, R106, R108). -/
def whenExecuted (i : Instr) (s : State) (body : Result) : Result :=
  if executed s.params.profile (tagOf i) then body else raise i ⟨.unimplementedOpcode, .none⟩ s

end Sys2Proof.Machine
end

