-- ==== Sys2Proof/Machine/Operands.lean ====
section
/-! DEFINITION. The operand forms: how an instruction's fields and registers become addresses, coordinates, digits,
shift operands and keys. -/

namespace Sys2Proof.Machine

/-- zext_16(nnn) (R73). -/
def zext16 (nnn : Addr) : Word := nnn.setWidth 16

/-- zext_16(nnn) + zext_16(V[0]), the target of JP V0, nnn (R125). -/
def offsetTarget (nnn : Addr) (v0 : Byte) : Word := nnn.setWidth 16 + v0.setWidth 16

/-- The address I + r of a sprite row or a block access, not truncated (R52). -/
def State.atIndex (s : State) (r : Nat) : Nat := s.i.toNat + r

/-- x0 = V[x] mod 64, DRW's start column (R146). -/
def State.startColumn (s : State) (x : Nib) : Nat := (s.reg x).toNat % 64

/-- y0 = V[y] mod 32, DRW's start row (R146). -/
def State.startRow (s : State) (y : Nib) : Nat := (s.reg y).toNat % 32

/-- src of SHR and SHL: V[x], or V[y] under SHIFT_SOURCE = VY (R169, R171). -/
def State.shiftOperand (s : State) (x y : Nib) : Byte :=
  match s.params.shiftSource with
  | .vx => s.reg x
  | .vy => s.reg y

/-- 0x050 + 5 * (V[x] mod 16), the glyph of a digit (R191). -/
def glyphAddress (d : Byte) : Word := BitVec.ofNat 16 (fontBase + 5 * (d.toNat % 16))

/-- v div 100 (R192). -/
def hundreds (v : Byte) : Byte := BitVec.ofNat 8 (v.toNat / 100)

/-- (v div 10) mod 10 (R192). -/
def tens (v : Byte) : Byte := BitVec.ofNat 8 (v.toNat / 10 % 10)

/-- v mod 10 (R192). -/
def ones (v : Byte) : Byte := BitVec.ofNat 8 (v.toNat % 10)

/-- Whether the key a register names is pressed; a value above 15 raises KeyOutOfRange (R204, R205). -/
def State.keyPressed (s : State) (x : Nib) : Except Cause Bool :=
  if 15 < (s.reg x).toNat then .error ⟨.keyOutOfRange, .key (s.reg x)⟩
  else .ok (s.keys.getLsbD (s.reg x).toNat)

/-- min over the pressed keys, LD_K's choice (R203); read only when some key is pressed. -/
def lowestKey (keys : BitVec 16) : Byte :=
  BitVec.ofNat 8 (((List.range 16).find? (fun k => keys.getLsbD k)).getD 0)

/-- (I + x + 1) mod 65536 under LOAD_STORE_INCREMENTS_I, else I as it is (R193, R194). -/
def State.indexAfterBlock (s : State) (x : Nib) : Word :=
  if s.params.loadStoreIncrementsI then s.i + (x.setWidth 16 + 1) else s.i

end Sys2Proof.Machine
end

