-- ==== Sys2Proof/Machine/ControlFlow.lean ====
section
/-! DEFINITION. The control-flow instructions (41_control_flow.md). -/

namespace Sys2Proof.Machine

/-- SYS nnn (R121): executed by no profile; it raises UnimplementedOpcode, always. -/
def execSys (nnn : Addr) (s : State) : Result :=
  raise (.sys nnn) ⟨.unimplementedOpcode, .none⟩ s

/-- RET (R122): pc <- Pop(), with no advance. -/
def execRet (s : State) : Result :=
  whenExecuted .ret s <|
    match s.pop with
    | .error c => raise .ret c s
    | .ok (w, t) => .next (t.jump w)

/-- JP nnn (R123). -/
def execJp (nnn : Addr) (s : State) : Result :=
  whenExecuted (.jp nnn) s (.next (s.jump (zext16 nnn)))

/-- CALL nnn (R124): the pushed value is the CALL's own address plus 2 (C1). -/
def execCall (nnn : Addr) (s : State) : Result :=
  whenExecuted (.call nnn) s <|
    match s.push (s.pc + 2) with
    | .error c => raise (.call nnn) c s
    | .ok t => .next (t.jump (zext16 nnn))

/-- JP V0, nnn (R125): the register is always V0 (D21). -/
def execJpV0 (nnn : Addr) (s : State) : Result :=
  whenExecuted (.jpV0 nnn) s (.next (s.jump (offsetTarget nnn (s.reg 0))))

/-- SE Vx, kk (R126). -/
def execSeVB (x : Nib) (kk : Byte) (s : State) : Result :=
  whenExecuted (.seVB x kk) s (.next (s.skipIf (s.reg x == kk)))

/-- SNE Vx, kk (R127). -/
def execSneVB (x : Nib) (kk : Byte) (s : State) : Result :=
  whenExecuted (.sneVB x kk) s (.next (s.skipIf (s.reg x != kk)))

/-- SE Vx, Vy (R128). -/
def execSeVV (x y : Nib) (s : State) : Result :=
  whenExecuted (.seVV x y) s (.next (s.skipIf (s.reg x == s.reg y)))

/-- SNE Vx, Vy (R129). -/
def execSneVV (x y : Nib) (s : State) : Result :=
  whenExecuted (.sneVV x y) s (.next (s.skipIf (s.reg x != s.reg y)))

end Sys2Proof.Machine
end

