-- ==== Sys2Proof/Machine/Flags.lean ====
section
/-! DEFINITION. The values written to VF as a flag (R24). -/

namespace Sys2Proof.Machine

/-- A flag as VF's byte: 1 or 0. -/
def flagByte (b : Bool) : Byte := if b then 1 else 0

/-- The carry out of bit 7 of a + b (R167). -/
def carryFlag (a b : Byte) : Byte := flagByte (decide (255 < a.toNat + b.toNat))

/-- NOT borrow of a - b: 1 when a >= b (R168, R170, D18). -/
def notBorrowFlag (a b : Byte) : Byte := flagByte (decide (b.toNat ≤ a.toNat))

/-- The bit SHR shifts out, src[0] (R169). -/
def shiftedOutRight (src : Byte) : Byte := flagByte (src.getLsbD 0)

/-- The bit SHL shifts out, src[7] (R171). -/
def shiftedOutLeft (src : Byte) : Byte := flagByte (src.getLsbD 7)

/-- DRW's collision flag: 1 if any row collided (R146). -/
def collisionFlag (collided : Bool) : Byte := flagByte collided

end Sys2Proof.Machine
end

