-- ==== Sys2Proof/Machine/Display.lean ====
section
/-! DEFINITION. The sprite-blit unit and the display instructions (42_display.md). -/

namespace Sys2Proof.Machine

/-- Target(c', y) before the row is brought into the grid: a column past the right edge continues on the row below
(R141, D7). -/
def blitTarget (c y : Nat) : Nat × Nat := if 64 ≤ c then (y + 1, c - 64) else (y, c)

/-- Bit j of a sprite byte, 0 the most significant (R140). -/
def spriteBit (b : Byte) (j : Nat) : Bool := b.getLsbD (7 - j)

/-- One bit of a draw call: a 1 bit toggles its pixel and collides if the pixel was on (R140, R143); the row is taken
mod 32 (R142, WRAP). -/
def blitBit (x y : Nat) (b : Byte) (acc : Framebuffer × Bool) (j : Nat) : Framebuffer × Bool :=
  if spriteBit b j then
    let r := Fin.ofNat 32 (blitTarget (x + j) y).1
    let c := Fin.ofNat 64 (blitTarget (x + j) y).2
    (acc.1.toggle r c, acc.2 || acc.1.get r c)
  else acc

/-- draw(x, y, b) under WRAP: the new framebuffer and whether a pixel went from on to off (R140, R143). -/
def Framebuffer.draw (fb : Framebuffer) (x y : Nat) (b : Byte) : Framebuffer × Bool :=
  (List.range 8).foldl (blitBit x y b) (fb, false)

/-- The first of a draw call's 8 targets that lies at row 32 or more, whatever its sprite bit (R142). -/
def firstTargetBelow (x y : Nat) : Option (Nat × Nat) :=
  ((List.range 8).map (fun j => blitTarget (x + j) y)).find? (fun t => decide (32 ≤ t.1))

/-- draw(x, y, b) under the machine's DISPLAY_VERTICAL_OVERFLOW: under FAULT the check comes before any bit of the
call is applied (R142). -/
def drawUnder (o : Config.VerticalOverflow) (fb : Framebuffer) (x y : Nat) (b : Byte) :
    Except Cause (Framebuffer × Bool) :=
  match o with
  | .wrap => .ok (fb.draw x y b)
  | .fault =>
    match firstTargetBelow x y with
    | some t => .error ⟨.framebufferOutOfBounds, .target t.1 t.2⟩
    | none => .ok (fb.draw x y b)

/-- The rows r, r + 1, ... of a DRW, that many of them: each byte is read just before its row is drawn, and the
collisions are ORed (R146, R147). -/
def drawRows (s : State) (x0 y0 : Nat) : Nat → Nat → Framebuffer × Bool → Except Cause (Framebuffer × Bool)
  | 0, _, acc => .ok acc
  | k + 1, r, acc =>
    match s.memRead (s.atIndex r) with
    | .error c => .error c
    | .ok b =>
      match drawUnder s.params.verticalOverflow acc.1 x0 (y0 + r) b with
      | .error c => .error c
      | .ok d => drawRows s x0 y0 k (r + 1) (d.1, acc.2 || d.2)

/-- CLS (R145): VF is unchanged. -/
def execCls (s : State) : Result :=
  whenExecuted .cls s (.next { s with fb := Framebuffer.cleared }.advance)

/-- DRW Vx, Vy, n (R146): the start comes from V before VF is cleared, so VF may be an operand (R147). A fault comes
after VF was cleared, so it leaves the fields of R110 unspecified. -/
def execDrw (x y n : Nib) (s : State) : Result :=
  whenExecuted (.drw x y n) s <|
    match drawRows s (s.startColumn x) (s.startRow y) n.toNat 0 (s.fb, false) with
    | .error c => raiseUnspecified (.drw x y n) c s
    | .ok d => .next ({ s with fb := d.1 }.setReg vf (collisionFlag d.2)).advance

end Sys2Proof.Machine
end

