-- ==== Sys2Proof/Machine/IndexMemory.lean ====
section
/-! DEFINITION. Index arithmetic and block memory (44_index_memory.md). -/

namespace Sys2Proof.Machine

/-- ADD I, Vx (R190): modulo 65536, no flag (D22). -/
def execAddI (x : Nib) (s : State) : Result :=
  whenExecuted (.addI x) s (.next (s.setI (s.i + (s.reg x).setWidth 16)).advance)

/-- LD F, Vx (R191): only the low nibble of Vx is used (D23). -/
def execLdF (x : Nib) (s : State) : Result :=
  whenExecuted (.ldF x) s (.next (s.setI (glyphAddress (s.reg x))).advance)

/-- Bytes stored one by one from an address on; the first one out of range faults (R195, D30). -/
def State.storeBytes (s : State) (a : Nat) : List Byte → Except Cause State
  | [] => .ok s
  | b :: bs =>
    match s.memWrite a b with
    | .error c => .error c
    | .ok t => t.storeBytes (a + 1) bs

/-- V[r], V[r + 1], ... read one by one from an address on, that many of them (R194, R195). -/
def State.loadRegs (s : State) : Nat → Nat → Nat → Except Cause State
  | 0, _, _ => .ok s
  | k + 1, r, a =>
    match s.memRead a with
    | .error c => .error c
    | .ok b => (s.setReg (BitVec.ofNat 4 r) b).loadRegs k (r + 1) (a + 1)

/-- V[0], ..., V[x], what LD [I], Vx stores (R193). -/
def State.regsUpTo (s : State) (x : Nib) : List Byte :=
  (List.range (x.toNat + 1)).map (fun r => s.reg (BitVec.ofNat 4 r))

/-- LD B, Vx (R192): the decimal digits at I, I + 1, I + 2. -/
def execLdB (x : Nib) (s : State) : Result :=
  whenExecuted (.ldB x) s <|
    match s.storeBytes (s.atIndex 0) [hundreds (s.reg x), tens (s.reg x), ones (s.reg x)] with
    | .error c => raiseUnspecified (.ldB x) c s
    | .ok t => .next t.advance

/-- LD [I], Vx (R193): V0 to Vx stored from I on. -/
def execLdIV (x : Nib) (s : State) : Result :=
  whenExecuted (.ldIV x) s <|
    match s.storeBytes (s.atIndex 0) (s.regsUpTo x) with
    | .error c => raiseUnspecified (.ldIV x) c s
    | .ok t => .next (t.setI (s.indexAfterBlock x)).advance

/-- LD Vx, [I] (R194): V0 to Vx loaded from I on. -/
def execLdVI (x : Nib) (s : State) : Result :=
  whenExecuted (.ldVI x) s <|
    match s.loadRegs (x.toNat + 1) 0 (s.atIndex 0) with
    | .error c => raiseUnspecified (.ldVI x) c s
    | .ok t => .next (t.setI (s.indexAfterBlock x)).advance

end Sys2Proof.Machine
end

