-- ==== Sys2Proof/Machine/LoadArith.lean ====
section
/-! DEFINITION. Register loads, arithmetic and logic, RND (43_load_arith.md). -/

namespace Sys2Proof.Machine

/-- LD Vx, kk (R160). -/
def execLdV (x : Nib) (kk : Byte) (s : State) : Result :=
  whenExecuted (.ldV x kk) s (.next (s.setReg x kk).advance)

/-- ADD Vx, kk (R161): modulo 256, no flag. -/
def execAddV (x : Nib) (kk : Byte) (s : State) : Result :=
  whenExecuted (.addV x kk) s (.next (s.setReg x (s.reg x + kk)).advance)

/-- LD I, nnn (R162). -/
def execSetI (nnn : Addr) (s : State) : Result :=
  whenExecuted (.setI nnn) s (.next (s.setI (zext16 nnn)).advance)

/-- LD Vx, Vy (R163). -/
def execLdVV (x y : Nib) (s : State) : Result :=
  whenExecuted (.ldVV x y) s (.next (s.setReg x (s.reg y)).advance)

/-- OR Vx, Vy (R164): VF is unchanged unless it is Vx (D16). -/
def execOr (x y : Nib) (s : State) : Result :=
  whenExecuted (.or x y) s (.next (s.setReg x (s.reg x ||| s.reg y)).advance)

/-- AND Vx, Vy (R165): VF as for OR. -/
def execAnd (x y : Nib) (s : State) : Result :=
  whenExecuted (.and x y) s (.next (s.setReg x (s.reg x &&& s.reg y)).advance)

/-- XOR Vx, Vy (R166): VF as for OR. -/
def execXor (x y : Nib) (s : State) : Result :=
  whenExecuted (.xor x y) s (.next (s.setReg x (s.reg x ^^^ s.reg y)).advance)

/-- V[x] <- result, then VF <- flag, VF last: with x = F the flag stays (R174, D17). -/
def State.setRegAndFlag (s : State) (x : Nib) (result flag : Byte) : State :=
  (s.setReg x result).setReg vf flag

/-- ADD Vx, Vy (R167). -/
def execAddVV (x y : Nib) (s : State) : Result :=
  whenExecuted (.addVV x y) s
    (.next (s.setRegAndFlag x (s.reg x + s.reg y) (carryFlag (s.reg x) (s.reg y))).advance)

/-- SUB Vx, Vy (R168): Vx - Vy. -/
def execSub (x y : Nib) (s : State) : Result :=
  whenExecuted (.sub x y) s
    (.next (s.setRegAndFlag x (s.reg x - s.reg y) (notBorrowFlag (s.reg x) (s.reg y))).advance)

/-- SHR Vx {, Vy} (R169). -/
def execShr (x y : Nib) (s : State) : Result :=
  whenExecuted (.shr x y) s
    (.next (s.setRegAndFlag x (s.shiftOperand x y >>> 1) (shiftedOutRight (s.shiftOperand x y))).advance)

/-- SUBN Vx, Vy (R170): Vy - Vx. -/
def execSubn (x y : Nib) (s : State) : Result :=
  whenExecuted (.subn x y) s
    (.next (s.setRegAndFlag x (s.reg y - s.reg x) (notBorrowFlag (s.reg y) (s.reg x))).advance)

/-- SHL Vx {, Vy} (R171). -/
def execShl (x y : Nib) (s : State) : Result :=
  whenExecuted (.shl x y) s
    (.next (s.setRegAndFlag x (s.shiftOperand x y <<< 1) (shiftedOutLeft (s.shiftOperand x y))).advance)

/-- RND Vx, kk (R172): the draw is the step's free one. -/
def execRnd (x : Nib) (kk : Byte) (s : State) : Result :=
  whenExecuted (.rnd x kk) s (.next (s.setReg x (s.rnd &&& kk)).advance)

end Sys2Proof.Machine
end

