-- ==== Sys2Proof/Machine/TimersKeys.lean ====
section
/-! DEFINITION. Timers and key input (45_timers_keys.md). -/

namespace Sys2Proof.Machine

/-- LD Vx, DT (R200). -/
def execLdVDT (x : Nib) (s : State) : Result :=
  whenExecuted (.ldVDT x) s (.next (s.setReg x s.dt).advance)

/-- LD DT, Vx (R201). -/
def execLdDT (x : Nib) (s : State) : Result :=
  whenExecuted (.ldDT x) s (.next { s with dt := s.reg x }.advance)

/-- LD ST, Vx (R202). -/
def execLdST (x : Nib) (s : State) : Result :=
  whenExecuted (.ldST x) s (.next { s with st := s.reg x }.advance)

/-- LD Vx, K (R203): with no key pressed nothing changes, and the same word runs again at the next step (D26). -/
def execLdK (x : Nib) (s : State) : Result :=
  whenExecuted (.ldK x) s <|
    if s.keys = 0 then .next s else .next (s.setReg x (lowestKey s.keys)).advance

/-- SKP Vx (R204). -/
def execSkp (x : Nib) (s : State) : Result :=
  whenExecuted (.skp x) s <|
    match s.keyPressed x with
    | .error c => raise (.skp x) c s
    | .ok pressed => .next (s.skipIf pressed)

/-- SKNP Vx (R205). -/
def execSknp (x : Nib) (s : State) : Result :=
  whenExecuted (.sknp x) s <|
    match s.keyPressed x with
    | .error c => raise (.sknp x) c s
    | .ok pressed => .next (s.skipIf (!pressed))

end Sys2Proof.Machine
end

