-- ==== Sys2Proof/Machine/HostPorts.lean ====
section
/-! DEFINITION. The host interface of R258: construction, the inputs keys, timer_tick and rnd, and the outputs
fb, sound_on and last_op. -/

namespace Sys2Proof.Machine

/-- new(program_bytes) for a machine with these parameters (R250): the font is in the reset contents, the program
is loaded from 0x200 and cut at the end of memory (R60). Reset replaces the whole state, so it is also what a reset
of any earlier machine gives (R251). -/
def State.construct (p : Config.Params) (program : List Byte) : State :=
  { State.reset with params := p }.load progBase program

/-- One timer_tick event on a timer: down by one if nonzero (R206). -/
def tickTimer (t : Byte) : Byte := if t = 0 then 0 else t - 1

/-- timer_tick(): both timers (R206). -/
def State.timerTick (s : State) : State := { s with dt := tickTimer s.dt, st := tickTimer s.st }

/-- A timer after that many timer_tick events (R206). -/
def tickedTimer : Nat → Byte → Byte
  | 0, t => t
  | n + 1, t => tickedTimer n (tickTimer t)

/-- The input of the coming step: the script's next one, else a free one (R206, R207, R172; log 8). -/
def State.nextInput (s : State) : Config.HostInput :=
  match s.script with
  | [] => ⟨Config.freeTicks s.clock, Config.freeKeys s.clock, Config.freeRnd s.clock⟩
  | h :: _ => h

/-- What the host did since the step before, taken at the start of a step under COMPLETE: the timer ticks, the keys
as sampled, the draw (R206, R207, R258; log 9). Under SOURCE there is no such input and nothing changes (R209, R259). -/
def State.hostMoves (s : State) : State :=
  match s.params.profile with
  | .source => s
  | .complete =>
    { s with
      dt := tickedTimer s.nextInput.ticks s.dt
      st := tickedTimer s.nextInput.ticks s.st
      keys := s.nextInput.keys
      rnd := s.nextInput.rnd
      script := s.script.tail
      clock := s.clock + 1 }

/-- The output fb: the pixel at row r and column c (R262). -/
def State.pixel (s : State) (r : Fin 32) (c : Fin 64) : Bool := s.fb.get r c

/-- The output sound_on: true exactly when ST > 0, COMPLETE only (R208). -/
def State.soundOn (s : State) : Bool :=
  s.params.profile == .complete && decide (0 < s.st.toNat)

/-- The optional output last_op, as a function of the state before the step: the operation that step runs, none for
a fetch fault (R112, U28). -/
def State.nextOperation (s : State) : Option Operation := s.fetchedWord.map decodeWord

end Sys2Proof.Machine
end

