-- ==== Sys2Proof/Machine/Cycle.lean ====
section
/-! DEFINITION. Fetch, decode and dispatch of one instruction (R100 to R103), and placing a word where the next
step fetches. -/

namespace Sys2Proof.Machine

/-- The stages of a step of a Running machine (R100): Fetch, decode, Execute. A fetch fault and an UNKNOWN word leave
everything but the status as it was (R107, R229). -/
def runCycle (s : State) : Result :=
  match s.fetch with
  | .error c => .next (s.faulted none none c)
  | .ok w =>
    match decodeWord w with
    | .unknown u => .next (s.faulted (some u) none ⟨.unknownOpcode, .none⟩)
    | .op i => exec i s

/-- A word of the opcode table stored at pc and pc + 1, as far as memory reaches. -/
def placeAtPc (s : State) (nbits w : Nat) : State := s.load s.pc.toNat (tableBytes nbits w)

end Sys2Proof.Machine
end

