-- ==== Sys2Proof/Machine/Step.lean ====
section
/-! DEFINITION. The step, the block's only transition (R100). -/

namespace Sys2Proof.Machine

/-- step() (R100): a Faulted machine takes none (R109); a Running one takes what the host did since the step before
(R206, R207) and then fetches, decodes and executes exactly one instruction (R14). -/
def step (s : State) : Host.Outcome State Fault Refusal :=
  match s.status with
  | .faulted _ => .fault .halted
  | .running => runCycle s.hostMoves

/-- The word w of the opcode table placed where step fetches its next instruction. It stands for the load of a
program at construction (R250, log 3). -/
def State.withFetchWord (s : State) (nbits w : Nat) : State := placeAtPc s nbits w

end Sys2Proof.Machine
end

