-- ==== Sys2Proof/Safety.lean ====
section
/-! DEFINITION. The terms claims are stated in: what a step leaves unchanged, the invariant of the machine, the
sprite mask of DRW, and the ends of a run (R263). -/

namespace Sys2Proof.Machine

/-! What a step leaves unchanged. -/

/-- Every byte of memory reads as before. -/
def SameMemory (s t : State) : Prop := ∀ a, t.byteAt a = s.byteAt a

/-- Every byte of memory outside the `n` bytes from `a` on reads as before. -/
def SameMemoryOutside (s t : State) (a n : Nat) : Prop :=
  ∀ b, (b < a ∨ a + n ≤ b) → t.byteAt b = s.byteAt b

/-- Every general register but the listed ones is as before. -/
def SameRegsExcept (s t : State) (xs : List Nib) : Prop := ∀ r, r ∉ xs → t.reg r = s.reg r

/-- Every general register is as before. -/
def SameRegs (s t : State) : Prop := ∀ r, t.reg r = s.reg r

/-- SP and every stack entry are as before. -/
def SameStack (s t : State) : Prop := t.sp = s.sp ∧ t.stack = s.stack

/-- Every pixel is as before. -/
def SameDisplay (s t : State) : Prop := ∀ r c, t.pixel r c = s.pixel r c

/-- DT and ST are as before. -/
def SameTimers (s t : State) : Prop := t.dt = s.dt ∧ t.st = s.st

/-- The status, the parameters and the host's inputs are as before. -/
def SameRest (s t : State) : Prop :=
  t.status = s.status ∧ t.params = s.params ∧ t.keys = s.keys ∧ t.rnd = s.rnd ∧
    t.script = s.script ∧ t.clock = s.clock

/-- Nothing but V, I and pc may differ. -/
def SameOutsideRegs (s t : State) : Prop :=
  SameMemory s t ∧ SameStack s t ∧ SameDisplay s t ∧ SameTimers s t ∧ SameRest s t

/-- Nothing but pc may differ. -/
def SameButPc (s t : State) : Prop := SameRegs s t ∧ t.i = s.i ∧ SameOutsideRegs s t

/-- Nothing but V and pc may differ. -/
def SameButRegs (s t : State) : Prop := t.i = s.i ∧ SameOutsideRegs s t

/-- The instruction takes the fault of a form the profile does not execute: the record, and every other field as
before (R108, R221). -/
def TakesUnimplemented (i : Instr) (s : State) : Prop :=
  exec i s = .next { s with
    status := .faulted ⟨.unimplementedOpcode, s.pc, s.fetchedWord, some (tagOf i), .none⟩ }

/-! The invariant. -/

/-- What every step keeps: memory is in its canonical form; under SOURCE the timers stay 0 (they do not exist
there, R35); and while the machine runs, pc is at most 0x10FE and every stack entry in use at most 0x1000 (R28), and
under SOURCE I is at most 0x0FFF (R25). After a fault R110 leaves pc, S and I open, so those say nothing there. -/
structure State.Inv (s : State) : Prop where
  memory : Memory.wf s.background s.mem
  sourceTimers : s.params.profile = .source → s.dt = 0 ∧ s.st = 0
  pcBound : s.status = .running → s.pc.toNat ≤ 0x10FE
  stackBound : s.status = .running →
    ∀ k (h : k < 255), k < s.sp.toNat → (s.stack[k]'h).toNat ≤ 0x1000
  sourceIndex : s.status = .running → s.params.profile = .source → s.i.toNat ≤ 0x0FFF

/-! The sprite mask. -/

/-- The pixel at row r and column c is a target of a 1 bit of the n-row sprite at I, started at (V[x] mod 64, V[y]
mod 32), the grid read by its linear index modulo 2048 (R141, R142, R148). -/
def State.spriteCovers (s : State) (x y n : Nib) (r : Fin 32) (c : Fin 64) : Bool :=
  (List.range n.toNat).any fun k =>
    (List.range 8).any fun j =>
      spriteBit (s.byteAt (s.atIndex k)) j &&
        (64 * (s.startRow y + k) + s.startColumn x + j) % 2048 == 64 * r.val + c.val

/-- No target of DRW's row k leaves the grid: the row, and the row below where the columns run over, are below 32
(R142). -/
def State.rowInGrid (s : State) (x y : Nib) (k : Nat) : Prop :=
  s.startRow y + k < 32 ∧ (64 ≤ s.startColumn x + 7 → s.startRow y + k + 1 < 32)

/-! The ends of a run (R263). -/

/-- A normal end at a: Running, pc = a, and the word at a is a jump to itself. -/
def State.normalEndAt (s : State) (a : Addr) : Prop :=
  s.status = .running ∧ s.pc = zext16 a ∧ s.fetch = .ok (encode (.jp a))

/-- A fault end. -/
def State.faultEnd (s : State) : Prop := ∃ r, s.status = .faulted r

/-- A bounded end: t is the state after exactly k steps from s. -/
def State.boundedEnd (s : State) (k : Nat) (t : State) : Prop := core.run k s = .next t

end Sys2Proof.Machine
end

