-- ==== Sys2Proof/Certificates/Slice0/Obligations.lean ====
section
/-! DEFINITION. The statements for the provers, each from the rules of spec/ its docstring names. -/

open Sys2Proof Sys2Proof.Machine Sys2Proof.Config

/-! Decoding and encoding. -/

/-- The decode examples of R87, all 21 rows. -/
def Obligations.DecodeExamples : Prop :=
  decodeWord 0x1AAA = .op (.jp 0xAAA) ∧ decodeWord 0x2AAA = .op (.call 0xAAA) ∧
  decodeWord 0x00E0 = .op .cls ∧ decodeWord 0x00EE = .op .ret ∧
  decodeWord 0x0000 = .op (.sys 0x000) ∧ decodeWord 0x01E0 = .op (.sys 0x1E0) ∧
  decodeWord 0x6A2F = .op (.ldV 0xA 0x2F) ∧ decodeWord 0x7FFF = .op (.addV 0xF 0xFF) ∧
  decodeWord 0xA123 = .op (.setI 0x123) ∧ decodeWord 0xD125 = .op (.drw 1 2 5) ∧
  decodeWord 0xD120 = .op (.drw 1 2 0) ∧ decodeWord 0x5120 = .op (.seVV 1 2) ∧
  decodeWord 0x512F = .op (.seVV 1 2) ∧ decodeWord 0x8124 = .op (.addVV 1 2) ∧
  decodeWord 0x8128 = .unknown 0x8128 ∧ decodeWord 0x812E = .op (.shl 1 2) ∧
  decodeWord 0xE19E = .op (.skp 1) ∧ decodeWord 0xE19F = .unknown 0xE19F ∧
  decodeWord 0xF165 = .op (.ldVI 1) ∧ decodeWord 0xF100 = .unknown 0xF100 ∧
  decodeWord 0xFFFF = .unknown 0xFFFF

/-- Decoding the encoded word of any well-formed instruction gives the instruction back (R74, R82). -/
def Obligations.DecodeOfEncode : Prop :=
  ∀ i : Instr, i.wellFormed = true → decodeWord (encode i) = .op i

/-- A word that decodes to an instruction decodes to a well-formed one, whose encoding is the word on every bit the
decoder inspects and 0 on the low nibble it does not (R74, R81, R85). -/
def Obligations.EncodeOfDecode : Prop :=
  ∀ (w : Word) (i : Instr), decodeWord w = .op i →
    i.wellFormed = true ∧ encode i = w &&& i.inspectedBits

/-- 00E0 and 00EE are matched on all 16 bits, and every other word of family 0 is SYS, which no profile executes
(R75, R76). -/
def Obligations.LiteralsBeforeFamilyZero : Prop :=
  ∀ w : Word,
    (decodeWord w = .op .cls ↔ w = 0x00E0) ∧
    (decodeWord w = .op .ret ↔ w = 0x00EE) ∧
    (w.extractLsb' 12 4 = 0x0#4 → w ≠ 0x00E0 → w ≠ 0x00EE →
      decodeWord w = .op (.sys (w.extractLsb' 0 12))) ∧
    (∀ p, executed p .sys = false)

/-- Families 1, 2, 3, 4, 6, 7, A, B, C and D decode on the top nibble alone, with the operand fields of R71 (R77), and
so do 5 and 9, whatever their low nibble (R81). -/
def Obligations.TopNibbleFamilies : Prop :=
  ∀ (w : Word) (f x y n : Nib) (kk : Byte) (nnn : Addr),
    f = w.extractLsb' 12 4 → x = w.extractLsb' 8 4 → y = w.extractLsb' 4 4 → n = w.extractLsb' 0 4 →
    kk = w.extractLsb' 0 8 → nnn = w.extractLsb' 0 12 →
    (f = 0x1#4 → decodeWord w = .op (.jp nnn)) ∧ (f = 0x2#4 → decodeWord w = .op (.call nnn)) ∧
    (f = 0x3#4 → decodeWord w = .op (.seVB x kk)) ∧ (f = 0x4#4 → decodeWord w = .op (.sneVB x kk)) ∧
    (f = 0x6#4 → decodeWord w = .op (.ldV x kk)) ∧ (f = 0x7#4 → decodeWord w = .op (.addV x kk)) ∧
    (f = 0xA#4 → decodeWord w = .op (.setI nnn)) ∧ (f = 0xB#4 → decodeWord w = .op (.jpV0 nnn)) ∧
    (f = 0xC#4 → decodeWord w = .op (.rnd x kk)) ∧ (f = 0xD#4 → decodeWord w = .op (.drw x y n)) ∧
    (f = 0x5#4 → decodeWord w = .op (.seVV x y)) ∧ (f = 0x9#4 → decodeWord w = .op (.sneVV x y))

/-- Families 8, E and F decode on the low nibble or the low byte, every other value being UNKNOWN (R78, R79, R80). -/
def Obligations.SubdecodedFamilies : Prop :=
  ∀ (w : Word) (f x y n : Nib) (kk : Byte),
    f = w.extractLsb' 12 4 → x = w.extractLsb' 8 4 → y = w.extractLsb' 4 4 → n = w.extractLsb' 0 4 →
    kk = w.extractLsb' 0 8 →
    (f = 0x8#4 →
      decodeWord w =
        if n = 0x0#4 then .op (.ldVV x y) else if n = 0x1#4 then .op (.or x y)
        else if n = 0x2#4 then .op (.and x y) else if n = 0x3#4 then .op (.xor x y)
        else if n = 0x4#4 then .op (.addVV x y) else if n = 0x5#4 then .op (.sub x y)
        else if n = 0x6#4 then .op (.shr x y) else if n = 0x7#4 then .op (.subn x y)
        else if n = 0xE#4 then .op (.shl x y) else .unknown w) ∧
    (f = 0xE#4 →
      decodeWord w =
        if kk = 0x9E#8 then .op (.skp x) else if kk = 0xA1#8 then .op (.sknp x) else .unknown w) ∧
    (f = 0xF#4 →
      decodeWord w =
        if kk = 0x07#8 then .op (.ldVDT x) else if kk = 0x0A#8 then .op (.ldK x)
        else if kk = 0x15#8 then .op (.ldDT x) else if kk = 0x18#8 then .op (.ldST x)
        else if kk = 0x1E#8 then .op (.addI x) else if kk = 0x29#8 then .op (.ldF x)
        else if kk = 0x33#8 then .op (.ldB x) else if kk = 0x55#8 then .op (.ldIV x)
        else if kk = 0x65#8 then .op (.ldVI x) else .unknown w)

/-- The UNKNOWN words are exactly those of families 8, E and F with an unassigned function value, and UNKNOWN carries
the raw word (R74, R83). -/
def Obligations.UnknownWords : Prop :=
  ∀ w : Word,
    (∀ u, decodeWord w = .unknown u → u = w) ∧
    ((∃ u, decodeWord w = .unknown u) ↔
      (w.extractLsb' 12 4 = 0x8#4 ∧ w.extractLsb' 0 4 ∈ [0x8#4, 0x9#4, 0xA#4, 0xB#4, 0xC#4, 0xD#4, 0xF#4]) ∨
      (w.extractLsb' 12 4 = 0xE#4 ∧ w.extractLsb' 0 8 ∉ [0x9E#8, 0xA1#8]) ∨
      (w.extractLsb' 12 4 = 0xF#4 ∧
        w.extractLsb' 0 8 ∉ [0x07#8, 0x0A#8, 0x15#8, 0x18#8, 0x1E#8, 0x29#8, 0x33#8, 0x55#8, 0x65#8]))

/-! The cycle. -/

/-- When the machine runs and the big-endian word at pc decodes to an instruction, a step is that instruction's
execution, from the state the host's inputs left: under SOURCE that is the state itself, under COMPLETE it differs in
the timers and the model's own input fields alone (R53, R54, R100; log 8, 9). -/
def Obligations.StepRunsDecodedInstruction : Prop :=
  ∀ (s : State) (i : Instr), s.status = .running → s.pc.toNat + 1 < 4096 →
    decodeWord (s.byteAt s.pc.toNat ++ s.byteAt (s.pc.toNat + 1)) = .op i →
    step s = exec i s.hostMoves ∧
    (s.params.profile = .source → s.hostMoves = s) ∧
    (s.params.profile = .complete →
      ∃ h : HostInput,
        s.hostMoves = { s with
          dt := tickedTimer h.ticks s.dt, st := tickedTimer h.ticks s.st
          keys := h.keys, rnd := h.rnd, script := s.script.tail, clock := s.clock + 1 })

/-- Under COMPLETE a step starts from the timers counted down by the ticks the host delivered, never below 0, and from
the keys and the draw of the scripted input, or of a free one when none is scripted (R172, R206, R207; log 8, 9). -/
def Obligations.HostMovesUnderComplete : Prop :=
  ∀ s : State, s.params.profile = .complete →
    ∃ h : HostInput,
      (∀ g l, s.script = g :: l → h = g ∧ s.hostMoves.script = l) ∧
      (s.script = [] → h = ⟨freeTicks s.clock, freeKeys s.clock, freeRnd s.clock⟩ ∧ s.hostMoves.script = []) ∧
      s.hostMoves.clock = s.clock + 1 ∧
      s.hostMoves.dt.toNat = s.dt.toNat - h.ticks ∧ s.hostMoves.st.toNat = s.st.toNat - h.ticks ∧
      s.hostMoves.keys = h.keys ∧ s.hostMoves.rnd = h.rnd ∧
      SameRegs s s.hostMoves ∧ s.hostMoves.i = s.i ∧ s.hostMoves.pc = s.pc ∧
      SameMemory s s.hostMoves ∧ SameStack s s.hostMoves ∧ SameDisplay s s.hostMoves ∧
      s.hostMoves.status = s.status ∧ s.hostMoves.params = s.params

/-- Fetch: an address outside memory faults, pc before pc + 1; else the two bytes, big-endian, whatever the parity
of pc (R54). -/
def Obligations.FetchIsBoundsChecked : Prop :=
  ∀ s : State,
    (4096 ≤ s.pc.toNat → s.fetch = .error ⟨.outOfBounds, .address s.pc.toNat⟩) ∧
    (s.pc.toNat < 4096 → 4096 ≤ s.pc.toNat + 1 →
      s.fetch = .error ⟨.outOfBounds, .address (s.pc.toNat + 1)⟩) ∧
    (s.pc.toNat + 1 < 4096 → s.fetch = .ok (s.byteAt s.pc.toNat ++ s.byteAt (s.pc.toNat + 1)))

/-- A step whose fetch faults takes OutOfBounds with no word and no tag, and changes nothing but the status in the
state the host's inputs left, which under COMPLETE may have moved the timers and the input fields (R221, R222, R229;
log 8, 9). -/
def Obligations.FetchFaultIsTaken : Prop :=
  ∀ s : State, s.status = .running → 4096 ≤ s.pc.toNat + 1 →
    step s = .next { s.hostMoves with
      status := .faulted ⟨.outOfBounds, s.pc, none, none, .address (max 4096 s.pc.toNat)⟩ }

/-- An UNKNOWN word raises UnknownOpcode and changes nothing but the status in the state the host's inputs left, so no
register, memory, stack or pixel changes; under COMPLETE the inputs may have moved the timers and the input fields
before (R107; log 8, 9). -/
def Obligations.UnknownWordFaults : Prop :=
  ∀ (s : State) (w u : Word), s.status = .running → s.fetch = .ok w → decodeWord w = .unknown u →
    step s = .next { s.hostMoves with status := .faulted ⟨.unknownOpcode, s.pc, some w, none, .none⟩ }

/-- A Faulted machine has no step (the outcome Fault.halted, log 4) and is no normal end; reset gives a Running one
(R109). -/
def Obligations.FaultedMachineHalts : Prop :=
  (∀ (s : State) (r : FaultRecord), s.status = .faulted r →
    step s = .fault .halted ∧ ∀ a, ¬ s.normalEndAt a) ∧
  ∀ (p : Params) (program : List Byte), (State.construct p program).status = .running

/-- Every instruction answers a next state in every state: a fault of R220 is taken, and nothing is refused (R100,
R221). -/
def Obligations.ExecAlwaysAnswers : Prop := ∀ (i : Instr) (s : State), ∃ t, exec i s = .next t

/-- A decoded form the profile does not execute raises UnimplementedOpcode and changes nothing but the status; under
SOURCE these are the forms other than eight, under COMPLETE SYS alone (R106, R108). -/
def Obligations.UnimplementedForms : Prop :=
  ∀ (i : Instr) (s : State),
    (executed s.params.profile (tagOf i) = false → TakesUnimplemented i s) ∧
    (executed .source (tagOf i) = true ↔
      tagOf i ∈ [Tag.cls, .ret, .jp, .call, .drw, .ldV, .addV, .setI]) ∧
    (executed .complete (tagOf i) = false ↔ tagOf i = .sys)

/-- Every fault an instruction takes records the instruction's own address, the word read there (log 7) and its tag
(R221, R229). -/
def Obligations.FaultsArePrecise : Prop :=
  ∀ (i : Instr) (s t : State) (r : FaultRecord), s.status = .running → exec i s = .next t →
    t.status = .faulted r → r.pc = s.pc ∧ r.word = s.fetchedWord ∧ r.op = some (tagOf i)

/-- The faults an instruction raises before it writes anything leave every other field as it was (R110, R229). -/
def Obligations.EarlyFaultsChangeNothingElse : Prop :=
  ∀ (i : Instr) (s t : State) (r : FaultRecord), s.status = .running → exec i s = .next t →
    t.status = .faulted r →
    r.kind ∈ [FaultKind.unimplementedOpcode, .stackOverflow, .stackUnderflow, .keyOutOfRange] →
    t = { s with status := .faulted r }

/-! Reset and the loader. -/

/-- The state after construction, field by field and byte by byte (R36). -/
def Obligations.ConstructedState : Prop :=
  ∀ (p : Params) (program : List Byte) (s : State), s = State.construct p program →
    (∀ x, s.reg x = 0) ∧ s.i = 0 ∧ s.pc = 0x200 ∧ s.sp = 0 ∧
    (∀ k (h : k < 255), s.stack[k]'h = 0) ∧ (∀ r c, s.pixel r c = false) ∧ s.status = .running ∧
    (p.profile = .complete → s.dt = 0 ∧ s.st = 0) ∧ s.params = p ∧
    (∀ k (h : k < 80), s.byteAt (0x050 + k) = p.font[k]'h) ∧
    (∀ k (h : k < program.length), k < 3584 → s.byteAt (0x200 + k) = program[k]'h) ∧
    (∀ a, a < 4096 → (a < 0x050 ∨ 0x0A0 ≤ a) → (a < 0x200 ∨ 0x200 + program.length ≤ a) → s.byteAt a = 0)

/-- State.reset is construction with no program and the default parameters of R8 (R8, R10, R250; log 1, 2). -/
def Obligations.ResetIsConstruction : Prop :=
  State.reset = State.construct defaultParams [] ∧ State.reset.params.profile = .source ∧
  State.reset.params.verticalOverflow = .wrap ∧ State.reset.params.shiftSource = .vx ∧
  State.reset.params.loadStoreIncrementsI = false

/-- A program image longer than 3584 bytes is cut to its first 3584 bytes, and nothing is reported (R60). -/
def Obligations.LongProgramsAreTruncated : Prop :=
  ∀ (p : Params) (program : List Byte),
    State.construct p program = State.construct p (program.take 3584) ∧
    (State.construct p program).status = .running

/-- A machine constructed with an empty program faults at its first step on the word 0x0000, SYS(0x000), under both
profiles (R253). -/
def Obligations.EmptyProgramFaults : Prop :=
  ∀ p : Params, ∃ t, step (State.construct p []) = .next t ∧
    t.status = .faulted ⟨.unimplementedOpcode, 0x200, some 0x0000, some .sys, .none⟩

/-! Memory. -/

/-- A data access outside memory raises OutOfBounds of its address; inside, a read gives the byte, a write changes that
byte alone; the address I + r is not truncated (R52). -/
def Obligations.DataAccessesAreBoundsChecked : Prop :=
  ∀ (s : State) (a r : Nat) (b : Byte),
    s.atIndex r = s.i.toNat + r ∧
    (4096 ≤ a → s.memRead a = .error ⟨.outOfBounds, .address a⟩ ∧
      s.memWrite a b = .error ⟨.outOfBounds, .address a⟩) ∧
    (a < 4096 → s.memRead a = .ok (s.byteAt a) ∧
      ∃ t, s.memWrite a b = .ok t ∧ t.byteAt a = b ∧ SameMemoryOutside s t a 1 ∧
        SameRegs s t ∧ t.i = s.i ∧ t.pc = s.pc ∧ SameStack s t ∧ SameDisplay s t ∧ SameTimers s t ∧ SameRest s t)

/-- Instruction fetch sees a byte written before, at either place of the word (R64). -/
def Obligations.FetchSeesStores : Prop :=
  ∀ (s t : State) (a : Nat) (b : Byte), s.memWrite a b = .ok t →
    (t.pc.toNat = a → a + 1 < 4096 → t.fetch = .ok (b ++ s.byteAt (a + 1))) ∧
    (t.pc.toNat + 1 = a → t.fetch = .ok (s.byteAt t.pc.toNat ++ b))

/-! Control flow. -/

/-- SYS raises UnimplementedOpcode, always, and changes nothing but the status (R121). -/
def Obligations.SysAlwaysFaults : Prop :=
  ∀ (nnn : Addr) (s : State),
    (nnn ≠ 0x0E0 → nnn ≠ 0x0EE → decodeWord (formatNNN 0x0#4 nnn) = .op (.sys nnn)) ∧
    exec (.sys nnn) s = .next { s with
      status := .faulted ⟨.unimplementedOpcode, s.pc, s.fetchedWord, some .sys, .none⟩ }

/-- RET pops pc with no advance; with an empty stack it raises StackUnderflow (R122). -/
def Obligations.RetPops : Prop :=
  ∀ s : State,
    decodeWord 0x00EE = .op .ret ∧
    (∀ h : 0 < s.sp.toNat, ∃ t, exec .ret s = .next t ∧
      t.pc = s.stack[s.sp.toNat - 1]'(by have := s.sp.isLt; omega) ∧ t.sp = s.sp - 1 ∧
      t.stack = s.stack ∧ SameRegs s t ∧ t.i = s.i ∧ SameMemory s t ∧ SameDisplay s t ∧ SameTimers s t ∧
      SameRest s t) ∧
    (s.sp = 0 → exec .ret s = .next { s with
      status := .faulted ⟨.stackUnderflow, s.pc, s.fetchedWord, some .ret, .none⟩ })

/-- JP sets pc to the zero-extended address, odd or not, and changes nothing else (R123). -/
def Obligations.JpJumps : Prop :=
  ∀ (nnn : Addr) (s : State), decodeWord (formatNNN 0x1#4 nnn) = .op (.jp nnn) ∧
    ∃ t, exec (.jp nnn) s = .next t ∧ t.pc.toNat = nnn.toNat ∧ SameButPc s t

/-- CALL pushes the address of the instruction after it and jumps; with a full stack it raises StackOverflow (R124). -/
def Obligations.CallPushes : Prop :=
  ∀ (nnn : Addr) (s : State),
    decodeWord (formatNNN 0x2#4 nnn) = .op (.call nnn) ∧
    (s.sp.toNat < 255 → ∃ t, exec (.call nnn) s = .next t ∧
      t.pc.toNat = nnn.toNat ∧ t.sp.toNat = s.sp.toNat + 1 ∧
      (∀ k (h : k < 255), t.stack[k]'h = if k = s.sp.toNat then s.pc + 2 else s.stack[k]'h) ∧
      SameRegs s t ∧ t.i = s.i ∧ SameMemory s t ∧ SameDisplay s t ∧ SameTimers s t ∧ SameRest s t) ∧
    (s.sp.toNat = 255 → exec (.call nnn) s = .next { s with
      status := .faulted ⟨.stackOverflow, s.pc, s.fetchedWord, some .call, .none⟩ })

/-- CALL and then RET restore pc to the CALL's address plus 2, and SP (R130). -/
def Obligations.CallThenRet : Prop :=
  ∀ (nnn : Addr) (s : State), s.sp.toNat < 255 →
    ∃ t u, exec (.call nnn) s = .next t ∧ exec .ret t = .next u ∧
      t.stack[s.sp.toNat]? = some (s.pc + 2) ∧ t.sp.toNat = s.sp.toNat + 1 ∧ t.pc.toNat = nnn.toNat ∧
      u.pc = s.pc + 2 ∧ u.sp = s.sp

/-- JP V0, nnn jumps to nnn plus V0, not wrapped; under SOURCE it raises UnimplementedOpcode (R125). -/
def Obligations.JpV0Jumps : Prop :=
  ∀ (nnn : Addr) (s : State),
    decodeWord (formatNNN 0xB#4 nnn) = .op (.jpV0 nnn) ∧
    (s.params.profile = .complete → ∃ t, exec (.jpV0 nnn) s = .next t ∧
      t.pc.toNat = nnn.toNat + (s.reg 0).toNat ∧ SameButPc s t) ∧
    (s.params.profile = .source → TakesUnimplemented (.jpV0 nnn) s)

/-- The four skips move pc by 4 when their condition holds, else by 2, and read nothing else: under SOURCE they raise
UnimplementedOpcode (R126, R127, R128, R129). -/
def Obligations.SkipsMovePc : Prop :=
  ∀ (x y n : Nib) (kk : Byte) (s : State),
    decodeWord (formatXKK 0x3#4 x kk) = .op (.seVB x kk) ∧ decodeWord (formatXKK 0x4#4 x kk) = .op (.sneVB x kk) ∧
    decodeWord (formatXYN 0x5#4 x y n) = .op (.seVV x y) ∧ decodeWord (formatXYN 0x9#4 x y n) = .op (.sneVV x y) ∧
    (s.params.profile = .complete →
      (∃ t, exec (.seVB x kk) s = .next t ∧
        t.pc = s.pc + (if s.reg x = kk then 4 else 2) ∧ SameButPc s t) ∧
      (∃ t, exec (.sneVB x kk) s = .next t ∧
        t.pc = s.pc + (if s.reg x ≠ kk then 4 else 2) ∧ SameButPc s t) ∧
      (∃ t, exec (.seVV x y) s = .next t ∧
        t.pc = s.pc + (if s.reg x = s.reg y then 4 else 2) ∧ SameButPc s t) ∧
      (∃ t, exec (.sneVV x y) s = .next t ∧
        t.pc = s.pc + (if s.reg x ≠ s.reg y then 4 else 2) ∧ SameButPc s t)) ∧
    (s.params.profile = .source →
      TakesUnimplemented (.seVB x kk) s ∧ TakesUnimplemented (.sneVB x kk) s ∧
      TakesUnimplemented (.seVV x y) s ∧ TakesUnimplemented (.sneVV x y) s)

/-! Display. -/

/-- CLS turns every pixel off and changes nothing else but pc (R145). -/
def Obligations.ClsClears : Prop :=
  ∀ s : State, decodeWord 0x00E0 = .op .cls ∧ ∃ t, exec .cls s = .next t ∧
    (∀ r c, t.pixel r c = false) ∧ t.pc = s.pc + 2 ∧
    SameRegs s t ∧ t.i = s.i ∧ SameMemory s t ∧ SameStack s t ∧ SameTimers s t ∧ SameRest s t

/-- DRW with every sprite byte in memory, and under FAULT every target in the grid, XORs the sprite into the
framebuffer and sets VF to 1 exactly when the sprite meets a pixel that was on (R142, R146, R147, R148). -/
def Obligations.DrwIsXorOfTheSprite : Prop :=
  ∀ (x y n : Nib) (s : State),
    (∀ k < n.toNat, s.i.toNat + k < 4096) →
    (s.params.verticalOverflow = .wrap ∨ ∀ k < n.toNat, s.rowInGrid x y k) →
    ∃ t, exec (.drw x y n) s = .next t ∧ t.pc = s.pc + 2 ∧
      (∀ r c, t.pixel r c = (s.pixel r c ^^ s.spriteCovers x y n r c)) ∧
      (t.reg vf = 1 ∨ t.reg vf = 0) ∧
      (t.reg vf = 1 ↔ ∃ r c, s.spriteCovers x y n r c = true ∧ s.pixel r c = true) ∧
      SameRegsExcept s t [vf] ∧ t.i = s.i ∧ SameMemory s t ∧ SameStack s t ∧ SameTimers s t ∧ SameRest s t

/-- DRW faults at the first row that reads outside memory, with OutOfBounds of that address, or, under
DISPLAY_VERTICAL_OVERFLOW = FAULT, that has a target below the grid, with FramebufferOutOfBounds of its first such
target; the read comes first (R142, R222, R227, R228). DT, ST and the parameters stay after such a fault: the model's
reading of R110's list, which does not name them (R35; log 5). -/
def Obligations.DrwFaults : Prop :=
  ∀ (x y n : Nib) (s : State) (k : Nat), k < n.toNat →
    (∀ j < k, s.i.toNat + j < 4096 ∧ (s.params.verticalOverflow = .wrap ∨ s.rowInGrid x y j)) →
    (4096 ≤ s.i.toNat + k → ∃ t, exec (.drw x y n) s = .next t ∧
      t.status = .faulted ⟨.outOfBounds, s.pc, s.fetchedWord, some .drw, .address (s.i.toNat + k)⟩ ∧
      SameTimers s t ∧ t.params = s.params) ∧
    (s.i.toNat + k < 4096 → s.params.verticalOverflow = .fault → ¬ s.rowInGrid x y k →
      ∃ t, exec (.drw x y n) s = .next t ∧
      t.status = .faulted ⟨.framebufferOutOfBounds, s.pc, s.fetchedWord, some .drw,
        .target 32 (if s.startRow y + k = 32 then s.startColumn x else 0)⟩ ∧
      SameTimers s t ∧ t.params = s.params)

/-- Drawing the same sprite at the same place twice restores the framebuffer; from an all-off framebuffer the second
draw sets VF to 1 exactly if the sprite turns some pixel on (R149). x and y are not VF, which DRW itself writes. -/
def Obligations.DrwTwiceRestores : Prop :=
  ∀ (x y n : Nib) (s : State), x ≠ vf → y ≠ vf →
    (∀ k < n.toNat, s.i.toNat + k < 4096) → s.params.verticalOverflow = .wrap →
    ∃ t u, exec (.drw x y n) s = .next t ∧ exec (.drw x y n) t = .next u ∧ SameDisplay s u ∧
      ((∀ r c, s.pixel r c = false) →
        (u.reg vf = 1 ↔ ∃ r c, s.spriteCovers x y n r c = true))

/-! Loads and arithmetic. -/

/-- LD Vx, kk and ADD Vx, kk write V[x] alone, the sum modulo 256 with no flag (R160, R161). -/
def Obligations.LdVAndAddV : Prop :=
  ∀ (x : Nib) (kk : Byte) (s : State),
    decodeWord (formatXKK 0x6#4 x kk) = .op (.ldV x kk) ∧ decodeWord (formatXKK 0x7#4 x kk) = .op (.addV x kk) ∧
    (∃ t, exec (.ldV x kk) s = .next t ∧ t.reg x = kk ∧ t.pc = s.pc + 2 ∧
      SameRegsExcept s t [x] ∧ SameButRegs s t) ∧
    (∃ t, exec (.addV x kk) s = .next t ∧ (t.reg x).toNat = ((s.reg x).toNat + kk.toNat) % 256 ∧
      t.pc = s.pc + 2 ∧ SameRegsExcept s t [x] ∧ SameButRegs s t)

/-- LD I, nnn writes the zero-extended address to I, unchecked (R162). -/
def Obligations.SetIWritesIndex : Prop :=
  ∀ (nnn : Addr) (s : State), decodeWord (formatNNN 0xA#4 nnn) = .op (.setI nnn) ∧
    ∃ t, exec (.setI nnn) s = .next t ∧ t.i.toNat = nnn.toNat ∧
    t.pc = s.pc + 2 ∧ SameRegs s t ∧ SameOutsideRegs s t

/-- LD, OR, AND and XOR of registers write V[x] alone, so VF stays unless x = F; under SOURCE they raise
UnimplementedOpcode (R163, R164, R165, R166, R174). -/
def Obligations.CopyAndLogic : Prop :=
  ∀ (x y : Nib) (s : State),
    decodeWord (formatXYN 0x8#4 x y 0x0#4) = .op (.ldVV x y) ∧ decodeWord (formatXYN 0x8#4 x y 0x1#4) = .op (.or x y) ∧
    decodeWord (formatXYN 0x8#4 x y 0x2#4) = .op (.and x y) ∧ decodeWord (formatXYN 0x8#4 x y 0x3#4) = .op (.xor x y) ∧
    (s.params.profile = .complete →
      (∃ t, exec (.ldVV x y) s = .next t ∧ t.reg x = s.reg y ∧ t.pc = s.pc + 2 ∧
        SameRegsExcept s t [x] ∧ SameButRegs s t) ∧
      (∃ t, exec (.or x y) s = .next t ∧ t.reg x = s.reg x ||| s.reg y ∧ t.pc = s.pc + 2 ∧
        SameRegsExcept s t [x] ∧ SameButRegs s t) ∧
      (∃ t, exec (.and x y) s = .next t ∧ t.reg x = s.reg x &&& s.reg y ∧ t.pc = s.pc + 2 ∧
        SameRegsExcept s t [x] ∧ SameButRegs s t) ∧
      (∃ t, exec (.xor x y) s = .next t ∧ t.reg x = s.reg x ^^^ s.reg y ∧ t.pc = s.pc + 2 ∧
        SameRegsExcept s t [x] ∧ SameButRegs s t)) ∧
    (s.params.profile = .source →
      TakesUnimplemented (.ldVV x y) s ∧ TakesUnimplemented (.or x y) s ∧
      TakesUnimplemented (.and x y) s ∧ TakesUnimplemented (.xor x y) s)

/-- ADD Vx, Vy writes the sum modulo 256 to V[x] and then the carry to VF, which stays when x = F; under SOURCE it
raises UnimplementedOpcode (R167, R174). -/
def Obligations.AddVVCarries : Prop :=
  ∀ (x y : Nib) (s : State),
    decodeWord (formatXYN 0x8#4 x y 0x4#4) = .op (.addVV x y) ∧
    (s.params.profile = .complete → ∃ t, exec (.addVV x y) s = .next t ∧
      (x ≠ vf → (t.reg x).toNat = ((s.reg x).toNat + (s.reg y).toNat) % 256) ∧
      t.reg vf = (if 255 < (s.reg x).toNat + (s.reg y).toNat then 1 else 0) ∧
      t.pc = s.pc + 2 ∧ SameRegsExcept s t [x, vf] ∧ SameButRegs s t) ∧
    (s.params.profile = .source → TakesUnimplemented (.addVV x y) s)

/-- SUB writes Vx - Vy and SUBN Vy - Vx, modulo 256, and then NOT borrow to VF, 1 at equality; under SOURCE they raise
UnimplementedOpcode (R168, R170, R174). -/
def Obligations.SubtractionsSetNotBorrow : Prop :=
  ∀ (x y : Nib) (s : State),
    decodeWord (formatXYN 0x8#4 x y 0x5#4) = .op (.sub x y) ∧ decodeWord (formatXYN 0x8#4 x y 0x7#4) = .op (.subn x y) ∧
    (s.params.profile = .complete →
      (∃ t, exec (.sub x y) s = .next t ∧
        (x ≠ vf → (t.reg x).toNat = ((s.reg x).toNat + 256 - (s.reg y).toNat) % 256) ∧
        t.reg vf = (if (s.reg y).toNat ≤ (s.reg x).toNat then 1 else 0) ∧
        t.pc = s.pc + 2 ∧ SameRegsExcept s t [x, vf] ∧ SameButRegs s t) ∧
      (∃ t, exec (.subn x y) s = .next t ∧
        (x ≠ vf → (t.reg x).toNat = ((s.reg y).toNat + 256 - (s.reg x).toNat) % 256) ∧
        t.reg vf = (if (s.reg x).toNat ≤ (s.reg y).toNat then 1 else 0) ∧
        t.pc = s.pc + 2 ∧ SameRegsExcept s t [x, vf] ∧ SameButRegs s t)) ∧
    (s.params.profile = .source → TakesUnimplemented (.sub x y) s ∧ TakesUnimplemented (.subn x y) s)

/-- SHR and SHL shift V[x], or V[y] under SHIFT_SOURCE = VY, by one into V[x], and then write the bit shifted out to
VF; under SOURCE they raise UnimplementedOpcode (R169, R171, R174). -/
def Obligations.ShiftsMoveOneBit : Prop :=
  ∀ (x y : Nib) (s : State) (src : Byte),
    (s.params.shiftSource = .vx → src = s.reg x) → (s.params.shiftSource = .vy → src = s.reg y) →
    decodeWord (formatXYN 0x8#4 x y 0x6#4) = .op (.shr x y) ∧ decodeWord (formatXYN 0x8#4 x y 0xE#4) = .op (.shl x y) ∧
    (s.params.profile = .complete →
      (∃ t, exec (.shr x y) s = .next t ∧
        (x ≠ vf → (t.reg x).toNat = src.toNat / 2) ∧ (t.reg vf).toNat = src.toNat % 2 ∧
        t.pc = s.pc + 2 ∧ SameRegsExcept s t [x, vf] ∧ SameButRegs s t) ∧
      (∃ t, exec (.shl x y) s = .next t ∧
        (x ≠ vf → (t.reg x).toNat = src.toNat * 2 % 256) ∧ (t.reg vf).toNat = src.toNat / 128 ∧
        t.pc = s.pc + 2 ∧ SameRegsExcept s t [x, vf] ∧ SameButRegs s t)) ∧
    (s.params.profile = .source → TakesUnimplemented (.shr x y) s ∧ TakesUnimplemented (.shl x y) s)

/-- RND writes the draw AND kk to V[x], for every draw (the field rnd that the step filled, log 8); under SOURCE it
raises UnimplementedOpcode (R172). -/
def Obligations.RndMasksTheDraw : Prop :=
  ∀ (x : Nib) (kk : Byte) (s : State),
    decodeWord (formatXKK 0xC#4 x kk) = .op (.rnd x kk) ∧
    (s.params.profile = .complete → ∃ t, exec (.rnd x kk) s = .next t ∧
      t.reg x = s.rnd &&& kk ∧ t.pc = s.pc + 2 ∧ SameRegsExcept s t [x] ∧ SameButRegs s t) ∧
    (s.params.profile = .source → TakesUnimplemented (.rnd x kk) s)

/-! Index and block memory. -/

/-- ADD I, Vx adds modulo 65536 and LD F, Vx points I at the glyph of the low nibble, neither writing a flag; under
SOURCE they raise UnimplementedOpcode (R190, R191, R195). -/
def Obligations.IndexArithmetic : Prop :=
  ∀ (x : Nib) (s : State),
    decodeWord (formatXKK 0xF#4 x 0x1E#8) = .op (.addI x) ∧ decodeWord (formatXKK 0xF#4 x 0x29#8) = .op (.ldF x) ∧
    (s.params.profile = .complete →
      (∃ t, exec (.addI x) s = .next t ∧ t.i.toNat = (s.i.toNat + (s.reg x).toNat) % 65536 ∧
        t.pc = s.pc + 2 ∧ SameRegs s t ∧ SameOutsideRegs s t) ∧
      (∃ t, exec (.ldF x) s = .next t ∧ t.i.toNat = 0x050 + 5 * ((s.reg x).toNat % 16) ∧
        t.pc = s.pc + 2 ∧ SameRegs s t ∧ SameOutsideRegs s t)) ∧
    (s.params.profile = .source → TakesUnimplemented (.addI x) s ∧ TakesUnimplemented (.ldF x) s)

/-- LD B, Vx stores the three decimal digits at I, I + 1, I + 2 and leaves I and every other byte; the first of them
outside memory raises OutOfBounds; under SOURCE it raises UnimplementedOpcode (R192). -/
def Obligations.BcdStoresDigits : Prop :=
  ∀ (x : Nib) (s : State),
    decodeWord (formatXKK 0xF#4 x 0x33#8) = .op (.ldB x) ∧
    (s.params.profile = .complete → s.i.toNat + 3 ≤ 4096 → ∃ t, exec (.ldB x) s = .next t ∧
      (t.byteAt s.i.toNat).toNat = (s.reg x).toNat / 100 ∧
      (t.byteAt (s.i.toNat + 1)).toNat = (s.reg x).toNat / 10 % 10 ∧
      (t.byteAt (s.i.toNat + 2)).toNat = (s.reg x).toNat % 10 ∧
      SameMemoryOutside s t s.i.toNat 3 ∧ t.pc = s.pc + 2 ∧ SameRegs s t ∧ t.i = s.i ∧
      SameStack s t ∧ SameDisplay s t ∧ SameTimers s t ∧ SameRest s t) ∧
    (s.params.profile = .complete → 4096 < s.i.toNat + 3 → ∃ t, exec (.ldB x) s = .next t ∧
      t.status = .faulted ⟨.outOfBounds, s.pc, s.fetchedWord, some .ldB, .address (max s.i.toNat 4096)⟩) ∧
    (s.params.profile = .source → TakesUnimplemented (.ldB x) s)

/-- LD [I], Vx stores V0 to Vx from I on and leaves every other byte; I moves past them under
LOAD_STORE_INCREMENTS_I alone; the first address outside memory raises OutOfBounds; under SOURCE it raises
UnimplementedOpcode (R193). -/
def Obligations.BlockStore : Prop :=
  ∀ (x : Nib) (s : State),
    decodeWord (formatXKK 0xF#4 x 0x55#8) = .op (.ldIV x) ∧
    (s.params.profile = .complete → s.i.toNat + x.toNat < 4096 → ∃ t, exec (.ldIV x) s = .next t ∧
      (∀ r : Nib, r.toNat ≤ x.toNat → t.byteAt (s.i.toNat + r.toNat) = s.reg r) ∧
      SameMemoryOutside s t s.i.toNat (x.toNat + 1) ∧
      t.i.toNat = (if s.params.loadStoreIncrementsI then (s.i.toNat + x.toNat + 1) % 65536 else s.i.toNat) ∧
      t.pc = s.pc + 2 ∧ SameRegs s t ∧ SameStack s t ∧ SameDisplay s t ∧ SameTimers s t ∧ SameRest s t) ∧
    (s.params.profile = .complete → 4096 ≤ s.i.toNat + x.toNat → ∃ t, exec (.ldIV x) s = .next t ∧
      t.status = .faulted ⟨.outOfBounds, s.pc, s.fetchedWord, some .ldIV, .address (max s.i.toNat 4096)⟩) ∧
    (s.params.profile = .source → TakesUnimplemented (.ldIV x) s)

/-- LD Vx, [I] loads V0 to Vx from I on and leaves the other registers; I moves as for the store; the first address
outside memory raises OutOfBounds; under SOURCE it raises UnimplementedOpcode (R194). -/
def Obligations.BlockLoad : Prop :=
  ∀ (x : Nib) (s : State),
    decodeWord (formatXKK 0xF#4 x 0x65#8) = .op (.ldVI x) ∧
    (s.params.profile = .complete → s.i.toNat + x.toNat < 4096 → ∃ t, exec (.ldVI x) s = .next t ∧
      (∀ r : Nib, t.reg r = if r.toNat ≤ x.toNat then s.byteAt (s.i.toNat + r.toNat) else s.reg r) ∧
      t.i.toNat = (if s.params.loadStoreIncrementsI then (s.i.toNat + x.toNat + 1) % 65536 else s.i.toNat) ∧
      t.pc = s.pc + 2 ∧ SameOutsideRegs s t) ∧
    (s.params.profile = .complete → 4096 ≤ s.i.toNat + x.toNat → ∃ t, exec (.ldVI x) s = .next t ∧
      t.status = .faulted ⟨.outOfBounds, s.pc, s.fetchedWord, some .ldVI, .address (max s.i.toNat 4096)⟩) ∧
    (s.params.profile = .source → TakesUnimplemented (.ldVI x) s)

/-! Timers and keys. -/

/-- LD Vx, DT reads the delay timer, LD DT, Vx and LD ST, Vx set the timers; under SOURCE they raise
UnimplementedOpcode (R200, R201, R202, R209). -/
def Obligations.TimerLoads : Prop :=
  ∀ (x : Nib) (s : State),
    decodeWord (formatXKK 0xF#4 x 0x07#8) = .op (.ldVDT x) ∧ decodeWord (formatXKK 0xF#4 x 0x15#8) = .op (.ldDT x) ∧
    decodeWord (formatXKK 0xF#4 x 0x18#8) = .op (.ldST x) ∧
    (s.params.profile = .complete →
      (∃ t, exec (.ldVDT x) s = .next t ∧ t.reg x = s.dt ∧ t.pc = s.pc + 2 ∧
        SameRegsExcept s t [x] ∧ SameButRegs s t) ∧
      (∃ t, exec (.ldDT x) s = .next t ∧ t.dt = s.reg x ∧ t.st = s.st ∧ t.pc = s.pc + 2 ∧
        SameRegs s t ∧ t.i = s.i ∧ SameMemory s t ∧ SameStack s t ∧ SameDisplay s t ∧ SameRest s t) ∧
      (∃ t, exec (.ldST x) s = .next t ∧ t.st = s.reg x ∧ t.dt = s.dt ∧ t.pc = s.pc + 2 ∧
        SameRegs s t ∧ t.i = s.i ∧ SameMemory s t ∧ SameStack s t ∧ SameDisplay s t ∧ SameRest s t)) ∧
    (s.params.profile = .source →
      TakesUnimplemented (.ldVDT x) s ∧ TakesUnimplemented (.ldDT x) s ∧ TakesUnimplemented (.ldST x) s)

/-- LD Vx, K with no key pressed changes nothing, pc included; else it takes the lowest-numbered pressed key (the keys
are the field the step filled, log 8); under SOURCE it raises UnimplementedOpcode (R203). -/
def Obligations.KeyWait : Prop :=
  ∀ (x : Nib) (s : State),
    decodeWord (formatXKK 0xF#4 x 0x0A#8) = .op (.ldK x) ∧
    (s.params.profile = .complete → s.keys = 0 → exec (.ldK x) s = .next s) ∧
    (s.params.profile = .complete → s.keys ≠ 0 → ∃ t k, exec (.ldK x) s = .next t ∧
      k < 16 ∧ s.keys.getLsbD k = true ∧ (∀ j < k, s.keys.getLsbD j = false) ∧ (t.reg x).toNat = k ∧
      t.pc = s.pc + 2 ∧ SameRegsExcept s t [x] ∧ SameButRegs s t) ∧
    (s.params.profile = .source → TakesUnimplemented (.ldK x) s)

/-- SKP skips if the key V[x] names is pressed, SKNP if it is not; V[x] above 15 raises KeyOutOfRange and changes
nothing but the status (the keys are the field the step filled, log 8); under SOURCE they raise UnimplementedOpcode
(R204, R205). -/
def Obligations.KeySkips : Prop :=
  ∀ (x : Nib) (s : State),
    decodeWord (formatXKK 0xE#4 x 0x9E#8) = .op (.skp x) ∧ decodeWord (formatXKK 0xE#4 x 0xA1#8) = .op (.sknp x) ∧
    (s.params.profile = .complete → (s.reg x).toNat ≤ 15 →
      (∃ t, exec (.skp x) s = .next t ∧
        t.pc = s.pc + (if s.keys.getLsbD (s.reg x).toNat = true then 4 else 2) ∧ SameButPc s t) ∧
      (∃ t, exec (.sknp x) s = .next t ∧
        t.pc = s.pc + (if s.keys.getLsbD (s.reg x).toNat = false then 4 else 2) ∧ SameButPc s t)) ∧
    (s.params.profile = .complete → 15 < (s.reg x).toNat →
      exec (.skp x) s = .next { s with
        status := .faulted ⟨.keyOutOfRange, s.pc, s.fetchedWord, some .skp, .key (s.reg x)⟩ } ∧
      exec (.sknp x) s = .next { s with
        status := .faulted ⟨.keyOutOfRange, s.pc, s.fetchedWord, some .sknp, .key (s.reg x)⟩ }) ∧
    (s.params.profile = .source → TakesUnimplemented (.skp x) s ∧ TakesUnimplemented (.sknp x) s)

/-- sound_on is true exactly when ST > 0, COMPLETE only (R208). -/
def Obligations.SoundFollowsTimer : Prop :=
  ∀ s : State,
    (s.params.profile = .complete → (s.soundOn = true ↔ s.st ≠ 0)) ∧
    (s.params.profile = .source → s.soundOn = false)

/-! The whole machine. -/

/-- The invariant holds after every construction, for every program (R28, R35, R36). -/
def Obligations.ConstructionMeetsInvariant : Prop :=
  ∀ (p : Params) (program : List Byte), (State.construct p program).Inv

/-- The invariant holds at reset (R36). -/
def Obligations.ResetMeetsInvariant : Prop := State.reset.Inv

/-- Every step keeps the invariant: canonical memory, no timers under SOURCE, and of a running machine pc at most
0x10FE, stack entries in use at most 0x1000, and under SOURCE I at most 0x0FFF (R25, R28). -/
def Obligations.StepKeepsInvariant : Prop :=
  ∀ s t : State, s.Inv → step s = .next t → t.Inv

/-- No step changes the parameters (R8). -/
def Obligations.StepKeepsParameters : Prop :=
  ∀ s t : State, step s = .next t → t.params = s.params

/-- Memory changes in an instruction that ends without a fault only if it is LD B, Vx or LD [I], Vx under COMPLETE;
so under SOURCE it is constant (R50). -/
def Obligations.OnlyBlockStoresWriteMemory : Prop :=
  ∀ (i : Instr) (s t : State) (a : Nat), s.status = .running → exec i s = .next t → t.status = .running →
    t.byteAt a ≠ s.byteAt a →
    s.params.profile = .complete ∧ ((∃ x, i = .ldB x) ∨ ∃ x, i = .ldIV x)

/-- The framebuffer changes in an instruction that ends without a fault only if it is CLS or DRW (R32). -/
def Obligations.OnlyClsAndDrwWriteDisplay : Prop :=
  ∀ (i : Instr) (s t : State) (r : Fin 32) (c : Fin 64), s.status = .running → exec i s = .next t →
    t.status = .running → t.pixel r c ≠ s.pixel r c → i = .cls ∨ ∃ x y n, i = .drw x y n

/-- SP or a stack entry changes in an instruction that ends without a fault only if it is CALL or RET (R29). -/
def Obligations.OnlyCallAndRetTouchStack : Prop :=
  ∀ (i : Instr) (s t : State), s.status = .running → exec i s = .next t → t.status = .running →
    (t.sp ≠ s.sp ∨ t.stack ≠ s.stack) → (∃ nnn, i = .call nnn) ∨ i = .ret

/-- Under SOURCE the host's inputs have no effect: with any keys, draw, script and clock the step ends the same, in the
same status, and if it ends without a fault in the same state (R259). -/
def Obligations.SourceIgnoresHostInputs : Prop :=
  ∀ (s s' : State) (k : BitVec 16) (b : Byte) (l : List HostInput) (c : Nat),
    s.params.profile = .source → s' = { s with keys := k, rnd := b, script := l, clock := c } →
    (∀ f, step s = .fault f → step s' = .fault f) ∧
    ∀ t, step s = .next t → ∃ t', step s' = .next t' ∧ t'.status = t.status ∧
      (t.status = .running → t' = { t with keys := k, rnd := b, script := l, clock := c })

/-- The successor of a normal end is itself, apart from what the host did to the timers and inputs under COMPLETE
(R263). -/
def Obligations.NormalEndRepeats : Prop :=
  ∀ (s : State) (a : Addr), s.normalEndAt a →
    step s = .next s.hostMoves ∧ s.hostMoves.normalEndAt a ∧ (s.params.profile = .source → s.hostMoves = s)

/-- A table word placed where the next step fetches is what that step runs, and no other byte changes (R53, R100;
log 3). -/
def Obligations.PlacedWordRuns : Prop :=
  ∀ (s : State) (w : Nat) (i : Instr), s.status = .running → s.pc.toNat + 1 < 4096 →
    decodeTableWord 16 w = some i →
    step (s.withFetchWord 16 w) = exec i (s.withFetchWord 16 w).hostMoves ∧
    SameMemoryOutside s (s.withFetchWord 16 w) s.pc.toNat 2 ∧
    (s.withFetchWord 16 w).pc = s.pc
end

