-- ==== Sys2Proof/Laws/Memory.lean ====
section
/-! SUPPORT. The laws of memory: a read after a write, and that every memory operation keeps the canonical form. -/

namespace Sys2Proof.Machine

variable {bg f : Nat → Byte} {m : List Host.Cell} {a a' : Nat} {b : Byte}

theorem Memory.read_insert_same (h : ∀ c ∈ m, c.1 ≠ a) : Memory.read bg (Memory.insert a b m) a = b := by
  induction m with
  | nil => simp [Memory.insert, Memory.read]
  | cons c m ih =>
    have hc := h c (by simp)
    have hm := ih (fun d hd => h d (by simp [hd]))
    simp only [Memory.insert]
    split
    · simp [Memory.read]
    · simp [Memory.read, hc, hm]

theorem Memory.read_insert_ne (h : a' ≠ a) :
    Memory.read bg (Memory.insert a b m) a' = Memory.read bg m a' := by
  induction m with
  | nil => simp [Memory.insert, Memory.read, h.symm]
  | cons c m ih =>
    simp only [Memory.insert]
    split
    · simp [Memory.read, h.symm]
    · simp [Memory.read, ih]

theorem Memory.read_unlisted (h : ∀ c ∈ m, c.1 ≠ a) : Memory.read bg m a = bg a := by
  induction m with
  | nil => rfl
  | cons c m ih =>
    simp only [Memory.read, h c (by simp), if_false]
    exact ih (fun d hd => h d (by simp [hd]))

theorem Memory.read_filter_ne (h : a' ≠ a) :
    Memory.read bg (m.filter (fun c => c.1 != a)) a' = Memory.read bg m a' := by
  induction m with
  | nil => rfl
  | cons c m ih =>
    by_cases hc : c.1 = a
    · have : ¬ a = a' := fun e => h e.symm
      simp [hc, Memory.read, ih, this]
    · simp [hc, Memory.read, ih]

/-- A read after a write to the same address gives the byte written. -/
@[simp] theorem Memory.read_write_same : Memory.read bg (Memory.write bg m a b) a = b := by
  simp only [Memory.write]
  split
  · rename_i h
    rw [Memory.read_unlisted (by simp), h]
  · exact Memory.read_insert_same (by simp)

/-- A write leaves every other address alone. -/
theorem Memory.read_write_ne (h : a' ≠ a) :
    Memory.read bg (Memory.write bg m a b) a' = Memory.read bg m a' := by
  simp only [Memory.write]
  split
  · exact Memory.read_filter_ne h
  · rw [Memory.read_insert_ne h, Memory.read_filter_ne h]

theorem Memory.mem_insert {c : Host.Cell} : c ∈ Memory.insert a b m ↔ c = (a, b) ∨ c ∈ m := by
  induction m with
  | nil => simp [Memory.insert]
  | cons d m ih =>
    simp only [Memory.insert]
    split <;> (simp_all; try tauto)

theorem Memory.insert_sorted (h : m.Pairwise (fun c d => c.1 < d.1)) (ha : ∀ c ∈ m, c.1 ≠ a) :
    (Memory.insert a b m).Pairwise (fun c d => c.1 < d.1) := by
  induction m with
  | nil => simp [Memory.insert]
  | cons c m ih =>
    obtain ⟨hc, hm⟩ := List.pairwise_cons.1 h
    simp only [Memory.insert]
    split
    · rename_i hlt
      refine List.pairwise_cons.2 ⟨fun d hd => ?_, h⟩
      rcases List.mem_cons.1 hd with rfl | hd
      · exact hlt
      · exact lt_trans hlt (hc d hd)
    · rename_i hge
      have hca := ha c (by simp)
      refine List.pairwise_cons.2 ⟨fun d hd => ?_, ih hm (fun d hd => ha d (by simp [hd]))⟩
      rcases Memory.mem_insert.1 hd with rfl | hd
      · show c.1 < a
        omega
      · exact hc d hd

/-- A write inside MEM keeps the canonical form. -/
theorem Memory.write_wf (h : Memory.wf bg m) (ha : a < memSize) : Memory.wf bg (Memory.write bg m a b) := by
  obtain ⟨hs, hc⟩ := h
  have hs' : (m.filter (fun c => c.1 != a)).Pairwise (fun c d => c.1 < d.1) := hs.filter _
  simp only [Memory.write]
  split
  · exact ⟨hs', fun c hm => hc c (List.mem_filter.1 hm).1⟩
  · rename_i hb
    refine ⟨Memory.insert_sorted hs' (by simp), fun c hm => ?_⟩
    rcases Memory.mem_insert.1 hm with rfl | hm
    · exact ⟨ha, hb⟩
    · exact hc c (List.mem_filter.1 hm).1

/-- The memory of 4096 given bytes is in the canonical form. -/
theorem Memory.ofBytes_wf : Memory.wf bg (Memory.ofBytes bg f) := by
  constructor
  · refine List.Pairwise.filterMap _ (fun x y hxy => ?_) List.pairwise_lt_range
    intro c hc d hd
    simp only [Option.ite_none_left_eq_some, Option.some.injEq] at hc hd
    rw [← hc.2, ← hd.2]
    exact hxy
  · intro c hc
    obtain ⟨x, hx, hxc⟩ := List.mem_filterMap.1 hc
    simp only [Option.ite_none_left_eq_some, Option.some.injEq] at hxc
    rw [← hxc.2]
    exact ⟨List.mem_range.1 hx, hxc.1⟩

/-- Memory with nothing listed is in the canonical form. -/
theorem Memory.nil_wf : Memory.wf bg [] := ⟨List.Pairwise.nil, by simp⟩

/-- MEM[a] after MEM[a] <- b. -/
@[simp] theorem State.byteAt_poke_same (s : State) : (s.poke a b).byteAt a = b := Memory.read_write_same

/-- Another byte after MEM[a] <- b. -/
theorem State.byteAt_poke_ne (s : State) (h : a' ≠ a) : (s.poke a b).byteAt a' = s.byteAt a' :=
  Memory.read_write_ne h

theorem State.byteAt_poke (s : State) : (s.poke a b).byteAt a' = if a' = a then b else s.byteAt a' := by
  split
  · rename_i h
    rw [h, State.byteAt_poke_same]
  · rename_i h
    exact State.byteAt_poke_ne s h

end Sys2Proof.Machine
end

