-- ==== Sys2Proof/Laws/State.lean ====
section
/-! SUPPORT. One lemma per field and update of State, so that no later proof unfolds a record update. -/

namespace Sys2Proof.Machine

variable (s : State)

/-! State.setReg -/

@[simp] theorem State.mem_setReg (x : Nib) (b : Byte) : (s.setReg x b).mem = s.mem := rfl
@[simp] theorem State.v_setReg (x : Nib) (b : Byte) : (s.setReg x b).v = s.v.set x.toNat b x.isLt := rfl
@[simp] theorem State.i_setReg (x : Nib) (b : Byte) : (s.setReg x b).i = s.i := rfl
@[simp] theorem State.pc_setReg (x : Nib) (b : Byte) : (s.setReg x b).pc = s.pc := rfl
@[simp] theorem State.sp_setReg (x : Nib) (b : Byte) : (s.setReg x b).sp = s.sp := rfl
@[simp] theorem State.stack_setReg (x : Nib) (b : Byte) : (s.setReg x b).stack = s.stack := rfl
@[simp] theorem State.fb_setReg (x : Nib) (b : Byte) : (s.setReg x b).fb = s.fb := rfl
@[simp] theorem State.status_setReg (x : Nib) (b : Byte) : (s.setReg x b).status = s.status := rfl
@[simp] theorem State.dt_setReg (x : Nib) (b : Byte) : (s.setReg x b).dt = s.dt := rfl
@[simp] theorem State.st_setReg (x : Nib) (b : Byte) : (s.setReg x b).st = s.st := rfl
@[simp] theorem State.params_setReg (x : Nib) (b : Byte) : (s.setReg x b).params = s.params := rfl
@[simp] theorem State.keys_setReg (x : Nib) (b : Byte) : (s.setReg x b).keys = s.keys := rfl
@[simp] theorem State.rnd_setReg (x : Nib) (b : Byte) : (s.setReg x b).rnd = s.rnd := rfl
@[simp] theorem State.script_setReg (x : Nib) (b : Byte) : (s.setReg x b).script = s.script := rfl
@[simp] theorem State.clock_setReg (x : Nib) (b : Byte) : (s.setReg x b).clock = s.clock := rfl

/-! State.setI -/

@[simp] theorem State.mem_setI (w : Word) : (s.setI w).mem = s.mem := rfl
@[simp] theorem State.v_setI (w : Word) : (s.setI w).v = s.v := rfl
@[simp] theorem State.i_setI (w : Word) : (s.setI w).i = w := rfl
@[simp] theorem State.pc_setI (w : Word) : (s.setI w).pc = s.pc := rfl
@[simp] theorem State.sp_setI (w : Word) : (s.setI w).sp = s.sp := rfl
@[simp] theorem State.stack_setI (w : Word) : (s.setI w).stack = s.stack := rfl
@[simp] theorem State.fb_setI (w : Word) : (s.setI w).fb = s.fb := rfl
@[simp] theorem State.status_setI (w : Word) : (s.setI w).status = s.status := rfl
@[simp] theorem State.dt_setI (w : Word) : (s.setI w).dt = s.dt := rfl
@[simp] theorem State.st_setI (w : Word) : (s.setI w).st = s.st := rfl
@[simp] theorem State.params_setI (w : Word) : (s.setI w).params = s.params := rfl
@[simp] theorem State.keys_setI (w : Word) : (s.setI w).keys = s.keys := rfl
@[simp] theorem State.rnd_setI (w : Word) : (s.setI w).rnd = s.rnd := rfl
@[simp] theorem State.script_setI (w : Word) : (s.setI w).script = s.script := rfl
@[simp] theorem State.clock_setI (w : Word) : (s.setI w).clock = s.clock := rfl

/-! State.jump -/

@[simp] theorem State.mem_jump (w : Word) : (s.jump w).mem = s.mem := rfl
@[simp] theorem State.v_jump (w : Word) : (s.jump w).v = s.v := rfl
@[simp] theorem State.i_jump (w : Word) : (s.jump w).i = s.i := rfl
@[simp] theorem State.pc_jump (w : Word) : (s.jump w).pc = w := rfl
@[simp] theorem State.sp_jump (w : Word) : (s.jump w).sp = s.sp := rfl
@[simp] theorem State.stack_jump (w : Word) : (s.jump w).stack = s.stack := rfl
@[simp] theorem State.fb_jump (w : Word) : (s.jump w).fb = s.fb := rfl
@[simp] theorem State.status_jump (w : Word) : (s.jump w).status = s.status := rfl
@[simp] theorem State.dt_jump (w : Word) : (s.jump w).dt = s.dt := rfl
@[simp] theorem State.st_jump (w : Word) : (s.jump w).st = s.st := rfl
@[simp] theorem State.params_jump (w : Word) : (s.jump w).params = s.params := rfl
@[simp] theorem State.keys_jump (w : Word) : (s.jump w).keys = s.keys := rfl
@[simp] theorem State.rnd_jump (w : Word) : (s.jump w).rnd = s.rnd := rfl
@[simp] theorem State.script_jump (w : Word) : (s.jump w).script = s.script := rfl
@[simp] theorem State.clock_jump (w : Word) : (s.jump w).clock = s.clock := rfl

/-! State.advance -/

@[simp] theorem State.mem_advance : (s.advance).mem = s.mem := rfl
@[simp] theorem State.v_advance : (s.advance).v = s.v := rfl
@[simp] theorem State.i_advance : (s.advance).i = s.i := rfl
@[simp] theorem State.pc_advance : (s.advance).pc = s.pc + 2 := rfl
@[simp] theorem State.sp_advance : (s.advance).sp = s.sp := rfl
@[simp] theorem State.stack_advance : (s.advance).stack = s.stack := rfl
@[simp] theorem State.fb_advance : (s.advance).fb = s.fb := rfl
@[simp] theorem State.status_advance : (s.advance).status = s.status := rfl
@[simp] theorem State.dt_advance : (s.advance).dt = s.dt := rfl
@[simp] theorem State.st_advance : (s.advance).st = s.st := rfl
@[simp] theorem State.params_advance : (s.advance).params = s.params := rfl
@[simp] theorem State.keys_advance : (s.advance).keys = s.keys := rfl
@[simp] theorem State.rnd_advance : (s.advance).rnd = s.rnd := rfl
@[simp] theorem State.script_advance : (s.advance).script = s.script := rfl
@[simp] theorem State.clock_advance : (s.advance).clock = s.clock := rfl

/-! State.skipIf -/

@[simp] theorem State.mem_skipIf (c : Bool) : (s.skipIf c).mem = s.mem := rfl
@[simp] theorem State.v_skipIf (c : Bool) : (s.skipIf c).v = s.v := rfl
@[simp] theorem State.i_skipIf (c : Bool) : (s.skipIf c).i = s.i := rfl
@[simp] theorem State.pc_skipIf (c : Bool) : (s.skipIf c).pc = s.pc + (if c then 4 else 2) := rfl
@[simp] theorem State.sp_skipIf (c : Bool) : (s.skipIf c).sp = s.sp := rfl
@[simp] theorem State.stack_skipIf (c : Bool) : (s.skipIf c).stack = s.stack := rfl
@[simp] theorem State.fb_skipIf (c : Bool) : (s.skipIf c).fb = s.fb := rfl
@[simp] theorem State.status_skipIf (c : Bool) : (s.skipIf c).status = s.status := rfl
@[simp] theorem State.dt_skipIf (c : Bool) : (s.skipIf c).dt = s.dt := rfl
@[simp] theorem State.st_skipIf (c : Bool) : (s.skipIf c).st = s.st := rfl
@[simp] theorem State.params_skipIf (c : Bool) : (s.skipIf c).params = s.params := rfl
@[simp] theorem State.keys_skipIf (c : Bool) : (s.skipIf c).keys = s.keys := rfl
@[simp] theorem State.rnd_skipIf (c : Bool) : (s.skipIf c).rnd = s.rnd := rfl
@[simp] theorem State.script_skipIf (c : Bool) : (s.skipIf c).script = s.script := rfl
@[simp] theorem State.clock_skipIf (c : Bool) : (s.skipIf c).clock = s.clock := rfl

/-! State.poke -/

@[simp] theorem State.mem_poke (a : Nat) (b : Byte) : (s.poke a b).mem = Memory.write s.background s.mem a b := rfl
@[simp] theorem State.v_poke (a : Nat) (b : Byte) : (s.poke a b).v = s.v := rfl
@[simp] theorem State.i_poke (a : Nat) (b : Byte) : (s.poke a b).i = s.i := rfl
@[simp] theorem State.pc_poke (a : Nat) (b : Byte) : (s.poke a b).pc = s.pc := rfl
@[simp] theorem State.sp_poke (a : Nat) (b : Byte) : (s.poke a b).sp = s.sp := rfl
@[simp] theorem State.stack_poke (a : Nat) (b : Byte) : (s.poke a b).stack = s.stack := rfl
@[simp] theorem State.fb_poke (a : Nat) (b : Byte) : (s.poke a b).fb = s.fb := rfl
@[simp] theorem State.status_poke (a : Nat) (b : Byte) : (s.poke a b).status = s.status := rfl
@[simp] theorem State.dt_poke (a : Nat) (b : Byte) : (s.poke a b).dt = s.dt := rfl
@[simp] theorem State.st_poke (a : Nat) (b : Byte) : (s.poke a b).st = s.st := rfl
@[simp] theorem State.params_poke (a : Nat) (b : Byte) : (s.poke a b).params = s.params := rfl
@[simp] theorem State.keys_poke (a : Nat) (b : Byte) : (s.poke a b).keys = s.keys := rfl
@[simp] theorem State.rnd_poke (a : Nat) (b : Byte) : (s.poke a b).rnd = s.rnd := rfl
@[simp] theorem State.script_poke (a : Nat) (b : Byte) : (s.poke a b).script = s.script := rfl
@[simp] theorem State.clock_poke (a : Nat) (b : Byte) : (s.poke a b).clock = s.clock := rfl

/-! State.faulted -/

@[simp] theorem State.mem_faulted (w : Option Word) (o : Option Tag) (c : Cause) : (s.faulted w o c).mem = s.mem := rfl
@[simp] theorem State.v_faulted (w : Option Word) (o : Option Tag) (c : Cause) : (s.faulted w o c).v = s.v := rfl
@[simp] theorem State.i_faulted (w : Option Word) (o : Option Tag) (c : Cause) : (s.faulted w o c).i = s.i := rfl
@[simp] theorem State.pc_faulted (w : Option Word) (o : Option Tag) (c : Cause) : (s.faulted w o c).pc = s.pc := rfl
@[simp] theorem State.sp_faulted (w : Option Word) (o : Option Tag) (c : Cause) : (s.faulted w o c).sp = s.sp := rfl
@[simp] theorem State.stack_faulted (w : Option Word) (o : Option Tag) (c : Cause) : (s.faulted w o c).stack = s.stack := rfl
@[simp] theorem State.fb_faulted (w : Option Word) (o : Option Tag) (c : Cause) : (s.faulted w o c).fb = s.fb := rfl
@[simp] theorem State.status_faulted (w : Option Word) (o : Option Tag) (c : Cause) : (s.faulted w o c).status = .faulted ⟨c.kind, s.pc, w, o, c.info⟩ := rfl
@[simp] theorem State.dt_faulted (w : Option Word) (o : Option Tag) (c : Cause) : (s.faulted w o c).dt = s.dt := rfl
@[simp] theorem State.st_faulted (w : Option Word) (o : Option Tag) (c : Cause) : (s.faulted w o c).st = s.st := rfl
@[simp] theorem State.params_faulted (w : Option Word) (o : Option Tag) (c : Cause) : (s.faulted w o c).params = s.params := rfl
@[simp] theorem State.keys_faulted (w : Option Word) (o : Option Tag) (c : Cause) : (s.faulted w o c).keys = s.keys := rfl
@[simp] theorem State.rnd_faulted (w : Option Word) (o : Option Tag) (c : Cause) : (s.faulted w o c).rnd = s.rnd := rfl
@[simp] theorem State.script_faulted (w : Option Word) (o : Option Tag) (c : Cause) : (s.faulted w o c).script = s.script := rfl
@[simp] theorem State.clock_faulted (w : Option Word) (o : Option Tag) (c : Cause) : (s.faulted w o c).clock = s.clock := rfl

/-! The reads that an update leaves alone. -/

@[simp] theorem State.background_setReg (x : Nib) (b : Byte) : (s.setReg x b).background = s.background := rfl
@[simp] theorem State.background_setI (w : Word) : (s.setI w).background = s.background := rfl
@[simp] theorem State.background_jump (w : Word) : (s.jump w).background = s.background := rfl
@[simp] theorem State.background_advance : s.advance.background = s.background := rfl
@[simp] theorem State.background_skipIf (c : Bool) : (s.skipIf c).background = s.background := rfl
@[simp] theorem State.background_poke (a : Nat) (b : Byte) : (s.poke a b).background = s.background := rfl
@[simp] theorem State.background_faulted (w : Option Word) (o : Option Tag) (c : Cause) :
    (s.faulted w o c).background = s.background := rfl

@[simp] theorem State.byteAt_setReg (x : Nib) (b : Byte) (a : Nat) : (s.setReg x b).byteAt a = s.byteAt a := rfl
@[simp] theorem State.byteAt_setI (w : Word) (a : Nat) : (s.setI w).byteAt a = s.byteAt a := rfl
@[simp] theorem State.byteAt_jump (w : Word) (a : Nat) : (s.jump w).byteAt a = s.byteAt a := rfl
@[simp] theorem State.byteAt_advance (a : Nat) : s.advance.byteAt a = s.byteAt a := rfl
@[simp] theorem State.byteAt_skipIf (c : Bool) (a : Nat) : (s.skipIf c).byteAt a = s.byteAt a := rfl
@[simp] theorem State.byteAt_faulted (w : Option Word) (o : Option Tag) (c : Cause) (a : Nat) :
    (s.faulted w o c).byteAt a = s.byteAt a := rfl

@[simp] theorem State.reg_setI (w : Word) (x : Nib) : (s.setI w).reg x = s.reg x := rfl
@[simp] theorem State.reg_jump (w : Word) (x : Nib) : (s.jump w).reg x = s.reg x := rfl
@[simp] theorem State.reg_advance (x : Nib) : s.advance.reg x = s.reg x := rfl
@[simp] theorem State.reg_skipIf (c : Bool) (x : Nib) : (s.skipIf c).reg x = s.reg x := rfl
@[simp] theorem State.reg_poke (a : Nat) (b : Byte) (x : Nib) : (s.poke a b).reg x = s.reg x := rfl
@[simp] theorem State.reg_faulted (w : Option Word) (o : Option Tag) (c : Cause) (x : Nib) :
    (s.faulted w o c).reg x = s.reg x := rfl

/-- A register reads as it was written, and every other one as before (R21: no register aliases another). -/
theorem State.reg_setReg (x y : Nib) (b : Byte) :
    (s.setReg x b).reg y = if y = x then b else s.reg y := by
  simp only [State.reg, State.v_setReg, Vector.getElem_set]
  by_cases h : y = x
  · simp [h]
  · have : x.toNat ≠ y.toNat := fun e => h (BitVec.eq_of_toNat_eq e.symm)
    simp [h, this]

@[simp] theorem State.reg_setReg_same (x : Nib) (b : Byte) : (s.setReg x b).reg x = b := by
  simp [State.reg_setReg]

theorem State.reg_setReg_ne (x y : Nib) (b : Byte) (h : y ≠ x) : (s.setReg x b).reg y = s.reg y := by
  simp [State.reg_setReg, h]

end Sys2Proof.Machine
end

