-- ==== Sys2Proof/Laws/Ops.lean ====
section
/-! SUPPORT. One lemma per shared operation: everything it can do. -/

namespace Sys2Proof.Machine

variable {s t : State} {a n : Nat} {b : Byte} {w : Word} {c : Cause} {i : Instr} {body : Result}

/-! Memory accesses (R52). -/

theorem State.memRead_eq_ok : s.memRead a = .ok b ↔ a < memSize ∧ b = s.byteAt a := by
  unfold State.memRead
  split <;> simp_all [eq_comm]

theorem State.memRead_eq_error : s.memRead a = .error c ↔ memSize ≤ a ∧ c = outOfBoundsAt a := by
  unfold State.memRead
  split <;> simp_all [eq_comm]

theorem State.memWrite_eq_ok : s.memWrite a b = .ok t ↔ a < memSize ∧ t = s.poke a b := by
  unfold State.memWrite
  split <;> simp_all [eq_comm]

theorem State.memWrite_eq_error : s.memWrite a b = .error c ↔ memSize ≤ a ∧ c = outOfBoundsAt a := by
  unfold State.memWrite
  split <;> simp_all [eq_comm]

/-! Fetch (R54). -/

theorem State.fetch_eq_ok :
    s.fetch = .ok w ↔
      s.pc.toNat + 1 < memSize ∧ w = wordOfBytes (s.byteAt s.pc.toNat) (s.byteAt (s.pc.toNat + 1)) := by
  unfold State.fetch
  split
  · simp; omega
  · split
    · simp; omega
    · simp [eq_comm]; omega

theorem State.fetch_eq_error :
    s.fetch = .error c ↔
      memSize ≤ s.pc.toNat + 1 ∧ c = outOfBoundsAt (max memSize s.pc.toNat) := by
  unfold State.fetch
  split
  · rename_i h
    rw [Nat.max_eq_right h]
    simp [eq_comm]; omega
  · split
    · rename_i h1 h2
      have : s.pc.toNat + 1 = memSize := by omega
      rw [Nat.max_eq_left (by omega), ← this]
      simp [eq_comm]
    · simp; omega

theorem State.fetchedWord_of_fetch (h : s.fetch = .ok w) : s.fetchedWord = some w := by
  simp [State.fetchedWord, h]

/-! The call stack (R30). -/

theorem State.push_eq_ok :
    s.push w = .ok t ↔
      ∃ h : s.sp.toNat < 255, t = { s with stack := s.stack.set s.sp.toNat w h, sp := s.sp + 1 } := by
  unfold State.push
  split <;> simp_all [eq_comm]

theorem State.push_eq_error : s.push w = .error c ↔ s.sp = 255 ∧ c = ⟨.stackOverflow, .none⟩ := by
  unfold State.push
  split
  · rename_i h
    have hne : s.sp ≠ 255 := fun e => by simp [e] at h
    exact ⟨fun e => (nomatch e), fun e => absurd e.1 hne⟩
  · rename_i h
    have heq : s.sp = 255 := BitVec.eq_of_toNat_eq (by have := s.sp.isLt; simp; omega)
    exact ⟨fun e => ⟨heq, (Except.error.inj e).symm⟩, fun e => by rw [e.2]⟩

theorem State.pop_eq_ok {p : Word × State} :
    s.pop = .ok p ↔
      s.sp ≠ 0 ∧ p = (s.stack[s.sp.toNat - 1]'(by have := s.sp.isLt; omega), { s with sp := s.sp - 1 }) := by
  unfold State.pop
  split
  · rename_i h
    exact ⟨fun e => (nomatch e), fun e => absurd h e.1⟩
  · rename_i h
    exact ⟨fun e => ⟨h, (Except.ok.inj e).symm⟩, fun e => by rw [e.2]⟩

theorem State.pop_eq_error : s.pop = .error c ↔ s.sp = 0 ∧ c = ⟨.stackUnderflow, .none⟩ := by
  unfold State.pop
  split
  · rename_i h
    exact ⟨fun e => ⟨h, (Except.error.inj e).symm⟩, fun e => by rw [e.2]⟩
  · rename_i h
    exact ⟨fun e => (nomatch e), fun e => absurd e.1 h⟩

/-! The test of the profile (R106, R108). -/

theorem whenExecuted_of_executed (h : executed s.params.profile (tagOf i) = true) :
    whenExecuted i s body = body := by
  simp [whenExecuted, h]

theorem whenExecuted_of_not_executed (h : executed s.params.profile (tagOf i) = false) :
    whenExecuted i s body = raise i ⟨.unimplementedOpcode, .none⟩ s := by
  simp [whenExecuted, h]

/-- The eight forms of R9 execute under both profiles. -/
theorem executed_of_source {p : Config.Profile} {x : Tag} (h : sourceExecutes x = true) :
    executed p x = true := by
  cases p
  · exact h
  · cases x <;> simp_all [sourceExecutes, executed]

/-! The loader (R59). -/

theorem State.load_params (p : List Byte) : (s.load a p).params = s.params := by
  induction p generalizing s a with
  | nil => rfl
  | cons b p ih =>
    simp only [State.load]
    split
    · rfl
    · rw [ih, State.params_poke]

/-- The loader changes no field but memory. -/
theorem State.load_mem_only (p : List Byte) : ∃ m, s.load a p = { s with mem := m } := by
  induction p generalizing s a with
  | nil => exact ⟨s.mem, rfl⟩
  | cons b p ih =>
    simp only [State.load]
    split
    · exact ⟨s.mem, rfl⟩
    · obtain ⟨m, hm⟩ := ih (s := s.poke a b) (a := a + 1)
      exact ⟨m, hm⟩

theorem State.load_wf (p : List Byte) (h : Memory.wf s.background s.mem) :
    Memory.wf s.background (s.load a p).mem := by
  induction p generalizing s a with
  | nil => exact h
  | cons b p ih =>
    simp only [State.load]
    split
    · exact h
    · exact ih (s := s.poke a b) (Memory.write_wf h (by omega))

/-- A byte after load(base, bytes): the loaded one inside the loaded range and MEM, else as before (R59, R60). -/
theorem State.byteAt_load (p : List Byte) (x : Nat) :
    (s.load a p).byteAt x =
      if h : a ≤ x ∧ x < a + p.length ∧ x < memSize then p[x - a]'(by omega) else s.byteAt x := by
  induction p generalizing s a with
  | nil => simp [State.load]; omega
  | cons b p ih =>
    simp only [State.load]
    split
    · rename_i hge
      have : ¬ (a ≤ x ∧ x < a + (b :: p).length ∧ x < memSize) := by omega
      rw [dif_neg this]
    · rw [ih]
      by_cases hx : x = a
      · subst hx
        have h1 : ¬ (x + 1 ≤ x ∧ x < x + 1 + p.length ∧ x < memSize) := by omega
        have h2 : x ≤ x ∧ x < x + (b :: p).length ∧ x < memSize := by
          simp only [List.length_cons]; omega
        rw [dif_neg h1, dif_pos h2]
        simp
      · by_cases h1 : a + 1 ≤ x ∧ x < a + 1 + p.length ∧ x < memSize
        · have h2 : a ≤ x ∧ x < a + (b :: p).length ∧ x < memSize := by
            simp only [List.length_cons]; omega
          rw [dif_pos h1, dif_pos h2, List.getElem_cons]
          rw [dif_neg (by omega)]
          congr 1
        · have h2 : ¬ (a ≤ x ∧ x < a + (b :: p).length ∧ x < memSize) := by
            simp only [List.length_cons]; omega
          rw [dif_neg h1, dif_neg h2, State.byteAt_poke_ne s hx]

/-! The host's moves (R206, R207, R258). -/

theorem State.hostMoves_source (h : s.params.profile = .source) : s.hostMoves = s := by
  simp [State.hostMoves, h]

theorem State.hostMoves_complete (h : s.params.profile = .complete) :
    s.hostMoves = { s with
      dt := tickedTimer s.nextInput.ticks s.dt
      st := tickedTimer s.nextInput.ticks s.st
      keys := s.nextInput.keys
      rnd := s.nextInput.rnd
      script := s.script.tail
      clock := s.clock + 1 } := by
  simp [State.hostMoves, h]

/-- The host's moves touch the timers and the model's own fields alone. -/
theorem State.hostMoves_cases :
    s.hostMoves = s ∨ ∃ d u k r l n,
      s.hostMoves = { s with dt := d, st := u, keys := k, rnd := r, script := l, clock := n } := by
  cases h : s.params.profile
  · exact .inl (State.hostMoves_source h)
  · exact .inr ⟨_, _, _, _, _, _, State.hostMoves_complete h⟩

@[simp] theorem State.hostMoves_mem : s.hostMoves.mem = s.mem := by
  rcases s.hostMoves_cases with h | ⟨_, _, _, _, _, _, h⟩ <;> rw [h]

@[simp] theorem State.hostMoves_v : s.hostMoves.v = s.v := by
  rcases s.hostMoves_cases with h | ⟨_, _, _, _, _, _, h⟩ <;> rw [h]

@[simp] theorem State.hostMoves_i : s.hostMoves.i = s.i := by
  rcases s.hostMoves_cases with h | ⟨_, _, _, _, _, _, h⟩ <;> rw [h]

@[simp] theorem State.hostMoves_pc : s.hostMoves.pc = s.pc := by
  rcases s.hostMoves_cases with h | ⟨_, _, _, _, _, _, h⟩ <;> rw [h]

@[simp] theorem State.hostMoves_sp : s.hostMoves.sp = s.sp := by
  rcases s.hostMoves_cases with h | ⟨_, _, _, _, _, _, h⟩ <;> rw [h]

@[simp] theorem State.hostMoves_stack : s.hostMoves.stack = s.stack := by
  rcases s.hostMoves_cases with h | ⟨_, _, _, _, _, _, h⟩ <;> rw [h]

@[simp] theorem State.hostMoves_fb : s.hostMoves.fb = s.fb := by
  rcases s.hostMoves_cases with h | ⟨_, _, _, _, _, _, h⟩ <;> rw [h]

@[simp] theorem State.hostMoves_status : s.hostMoves.status = s.status := by
  rcases s.hostMoves_cases with h | ⟨_, _, _, _, _, _, h⟩ <;> rw [h]

@[simp] theorem State.hostMoves_params : s.hostMoves.params = s.params := by
  rcases s.hostMoves_cases with h | ⟨_, _, _, _, _, _, h⟩ <;> rw [h]

@[simp] theorem State.hostMoves_background : s.hostMoves.background = s.background := by
  simp [State.background]

@[simp] theorem State.hostMoves_byteAt : s.hostMoves.byteAt a = s.byteAt a := by
  simp [State.byteAt]

@[simp] theorem State.hostMoves_fetch : s.hostMoves.fetch = s.fetch := by
  simp [State.fetch]

/-- A timer after n ticks: down by n, not below 0 (R206). -/
theorem tickedTimer_toNat (u : Byte) : (tickedTimer n u).toNat = u.toNat - n := by
  induction n generalizing u with
  | zero => rfl
  | succ n ih =>
    rw [tickedTimer, ih]
    unfold tickTimer
    split
    · rename_i h
      simp [h]
    · rename_i h
      have h0 : u.toNat ≠ 0 := fun e => h (BitVec.eq_of_toNat_eq (by simpa using e))
      have : (u - 1).toNat = u.toNat - 1 := by
        rw [BitVec.toNat_sub_of_le (by simp [BitVec.le_def]; omega)]; rfl
      omega

/-! Keys (R203, R204). -/

theorem State.keyPressed_eq_ok {x : Nib} {p : Bool} :
    s.keyPressed x = .ok p ↔ (s.reg x).toNat ≤ 15 ∧ p = s.keys.getLsbD (s.reg x).toNat := by
  unfold State.keyPressed
  split
  · simp; omega
  · simp [eq_comm]; omega

theorem State.keyPressed_eq_error {x : Nib} :
    s.keyPressed x = .error c ↔ 15 < (s.reg x).toNat ∧ c = ⟨.keyOutOfRange, .key (s.reg x)⟩ := by
  unfold State.keyPressed
  split <;> simp_all [eq_comm]

end Sys2Proof.Machine
end

