-- ==== Sys2Proof/Laws/Blocks.lean ====
section
/-! SUPPORT. What the byte-by-byte stores and loads of LD_B, LD_IV and LD_VI do (R195). -/

namespace Sys2Proof.Machine

variable {s t : State} {c : Cause}

/-- Stores that all lie in MEM are a load of the bytes there. -/
theorem State.storeBytes_eq_load (bs : List Byte) (a : Nat) (h : a + bs.length ≤ memSize) :
    s.storeBytes a bs = .ok (s.load a bs) := by
  induction bs generalizing s a with
  | nil => rfl
  | cons b bs ih =>
    simp only [List.length_cons] at h
    have ha : a < memSize := by omega
    simp only [State.storeBytes, State.memWrite_eq_ok.2 ⟨ha, rfl⟩]
    rw [ih (a + 1) (by omega)]
    simp only [State.load, if_neg (Nat.not_le.2 ha)]

/-- A run of stores that leaves MEM faults at the first address outside it. -/
theorem State.storeBytes_error (bs : List Byte) (a : Nat) (hne : bs ≠ []) (h : memSize < a + bs.length) :
    s.storeBytes a bs = .error (outOfBoundsAt (max a memSize)) := by
  induction bs generalizing s a with
  | nil => exact absurd rfl hne
  | cons b bs ih =>
    simp only [List.length_cons] at h
    by_cases ha : memSize ≤ a
    · simp only [State.storeBytes, State.memWrite_eq_error.2 ⟨ha, rfl⟩, Nat.max_eq_left ha]
    · have hlt : a < memSize := by omega
      simp only [State.storeBytes, State.memWrite_eq_ok.2 ⟨hlt, rfl⟩]
      have hbs : bs ≠ [] := by
        rintro rfl
        simp only [List.length_nil] at h
        omega
      rw [ih (a + 1) hbs (by omega)]
      congr 2
      omega

/-- Stores that end well changed memory alone, and kept its canonical form. -/
theorem State.storeBytes_ok (bs : List Byte) (a : Nat) (h : s.storeBytes a bs = .ok t) :
    (∃ m, t = { s with mem := m }) ∧
      (Memory.wf s.background s.mem → Memory.wf s.background t.mem) := by
  induction bs generalizing s a with
  | nil =>
    cases h
    exact ⟨⟨_, rfl⟩, id⟩
  | cons b bs ih =>
    simp only [State.storeBytes] at h
    split at h
    · cases h
    · rename_i u hu
      obtain ⟨ha, rfl⟩ := State.memWrite_eq_ok.1 hu
      obtain ⟨⟨m, hm⟩, hwf⟩ := ih (s := s.poke a b) (a + 1) h
      exact ⟨⟨m, hm⟩, fun hs => hwf (Memory.write_wf hs ha)⟩

/-- Loads that all lie in MEM: each named register holds its byte, every other field stays. -/
theorem State.loadRegs_spec (k : Nat) :
    ∀ (s : State) (r a : Nat), r + k ≤ 16 → a + k ≤ memSize →
      ∃ v, s.loadRegs k r a = .ok { s with v := v } ∧
        ∀ x : Nib, ({ s with v := v } : State).reg x =
          if r ≤ x.toNat ∧ x.toNat < r + k then s.byteAt (a + (x.toNat - r)) else s.reg x := by
  induction k with
  | zero =>
    intro s r a _ _
    refine ⟨s.v, rfl, fun x => ?_⟩
    rw [if_neg (by omega)]
  | succ k ih =>
    intro s r a hr ha
    have hlt : a < memSize := by omega
    obtain ⟨v, hv, hreg⟩ := ih (s.setReg (BitVec.ofNat 4 r) (s.byteAt a)) (r + 1) (a + 1) (by omega) (by omega)
    refine ⟨v, ?_, fun x => ?_⟩
    · simp only [State.loadRegs, State.memRead_eq_ok.2 ⟨hlt, rfl⟩]
      exact hv
    · have hx := hreg x
      have hreg' : ({ s with v := v } : State).reg x =
          ({ s.setReg (BitVec.ofNat 4 r) (s.byteAt a) with v := v } : State).reg x := rfl
      rw [hreg', hx]
      have hrx : (BitVec.ofNat 4 r).toNat = r := by
        rw [BitVec.toNat_ofNat]
        exact Nat.mod_eq_of_lt (by omega)
      by_cases h1 : r + 1 ≤ x.toNat ∧ x.toNat < r + 1 + k
      · rw [if_pos h1, if_pos (by omega), State.byteAt_setReg]
        congr 1
        omega
      · rw [if_neg h1, State.reg_setReg]
        by_cases h2 : x = BitVec.ofNat 4 r
        · have : x.toNat = r := by rw [h2, hrx]
          rw [if_pos h2, if_pos (by omega)]
          congr 1
          omega
        · have : x.toNat ≠ r := fun e => h2 (BitVec.eq_of_toNat_eq (by rw [hrx, e]))
          rw [if_neg h2, if_neg (by omega)]

/-- A run of loads that leaves MEM faults at the first address outside it. -/
theorem State.loadRegs_error (k : Nat) :
    ∀ (s : State) (r a : Nat), memSize < a + k → 0 < k →
      s.loadRegs k r a = .error (outOfBoundsAt (max a memSize)) := by
  induction k with
  | zero => intro s r a _ h; omega
  | succ k ih =>
    intro s r a h _
    by_cases ha : memSize ≤ a
    · simp only [State.loadRegs, State.memRead_eq_error.2 ⟨ha, rfl⟩, Nat.max_eq_left ha]
    · have hlt : a < memSize := by omega
      simp only [State.loadRegs, State.memRead_eq_ok.2 ⟨hlt, rfl⟩]
      rw [ih _ (r + 1) (a + 1) (by omega) (by omega)]
      congr 2
      omega

/-- Loads that end well changed V alone. -/
theorem State.loadRegs_ok (k : Nat) :
    ∀ (s t : State) (r a : Nat), s.loadRegs k r a = .ok t → ∃ v, t = { s with v := v } := by
  induction k with
  | zero =>
    intro s t r a h
    cases h
    exact ⟨_, rfl⟩
  | succ k ih =>
    intro s t r a h
    simp only [State.loadRegs] at h
    split at h
    · cases h
    · obtain ⟨v, hv⟩ := ih _ _ _ _ h
      exact ⟨v, hv⟩

end Sys2Proof.Machine
end

