-- ==== Sys2Proof/Laws/Cycle.lean ====
section
/-! SUPPORT. Everything a step can do, said once. -/

namespace Sys2Proof.Machine

variable {s t : State}

/-- A step of a Running machine is one cycle from the state the host left (R100). -/
theorem step_running (h : s.status = .running) : step s = runCycle s.hostMoves := by
  simp [step, h]

/-- A Faulted machine takes no step (R109). -/
theorem step_faulted {r : FaultRecord} (h : s.status = .faulted r) : step s = .fault .halted := by
  simp [step, h]

/-- A cycle that reads a form executes it. -/
theorem runCycle_op {w : Word} {i : Instr} (hf : s.fetch = .ok w) (hd : decodeWord w = .op i) :
    runCycle s = exec i s := by
  simp [runCycle, hf, hd]

/-- A step that answers a next state ran from Running, and either Fetch faulted, or the word was UNKNOWN, or the
decoded form was executed (R100, R107). -/
theorem step_cases (h : step s = .next t) :
    s.status = .running ∧
      ((∃ c, s.fetch = .error c ∧ t = s.hostMoves.faulted none none c) ∨
        (∃ w u, s.fetch = .ok w ∧ decodeWord w = .unknown u ∧
          t = s.hostMoves.faulted (some u) none ⟨.unknownOpcode, .none⟩) ∨
        (∃ w i, s.fetch = .ok w ∧ decodeWord w = .op i ∧ exec i s.hostMoves = .next t)) := by
  cases hs : s.status with
  | faulted r => rw [step_faulted hs] at h; cases h
  | running =>
    refine ⟨rfl, ?_⟩
    rw [step_running hs] at h
    unfold runCycle at h
    rw [State.hostMoves_fetch] at h
    split at h
    · rename_i c hc
      cases h
      exact .inl ⟨c, hc, rfl⟩
    · rename_i w hw
      split at h
      · rename_i u hu
        cases h
        exact .inr (.inl ⟨w, u, hw, hu, rfl⟩)
      · rename_i i hi
        exact .inr (.inr ⟨w, i, hw, hi, h⟩)

end Sys2Proof.Machine
end

