-- ==== Sys2Proof/Laws/Display.lean ====
section
/-! SUPPORT. What the blit unit does, pixel by pixel: one draw call is an XOR with the byte's 8 distinct targets
(R143), and the rows of one DRW never meet (R148). -/

namespace Sys2Proof.Machine

theorem Framebuffer.get_toggle (fb : Framebuffer) (r r' : Fin 32) (c c' : Fin 64) :
    (fb.toggle r c).get r' c' = (fb.get r' c' ^^ decide (r' = r ∧ c' = c)) := by
  unfold Framebuffer.toggle Framebuffer.get
  simp only [Fin.getElem_fin, Vector.getElem_set]
  by_cases hr : r.val = r'.val
  · have hr' : r' = r := Fin.ext hr.symm
    subst hr'
    by_cases hc : c.val = c'.val
    · have hc' : c' = c := Fin.ext hc.symm
      subst hc'
      simp
    · have : ¬ c' = c := fun e => hc (by rw [e])
      simp [hc, this]
  · have : ¬ r' = r := fun e => hr (by rw [e])
    simp [hr, this]

@[simp] theorem Framebuffer.get_cleared (r : Fin 32) (c : Fin 64) : Framebuffer.cleared.get r c = false := by
  simp [Framebuffer.cleared, Framebuffer.get]

/-- Two framebuffers with the same pixels are equal. -/
theorem Framebuffer.ext_get {fb fb' : Framebuffer} (h : ∀ r c, fb.get r c = fb'.get r c) : fb = fb' := by
  refine Vector.ext fun r hr => Vector.ext fun c hc => ?_
  exact h ⟨r, hr⟩ ⟨c, hc⟩

/-- The linear index modulo 2048 that bit j of a draw at (x, y) targets (R141, R142). -/
def linearTarget (x y j : Nat) : Nat := (64 * y + x + j) % 2048

/-- The grid position of a target is the one with its linear index. -/
theorem blitTarget_eq_iff {x y j : Nat} (h : x + j < 128) (r : Fin 32) (c : Fin 64) :
    (r = Fin.ofNat 32 (blitTarget (x + j) y).1 ∧ c = Fin.ofNat 64 (blitTarget (x + j) y).2) ↔
      linearTarget x y j = 64 * r.val + c.val := by
  have hr := r.isLt
  have hc := c.isLt
  unfold blitTarget linearTarget
  simp only [Fin.ext_iff, Fin.ofNat]
  split <;> simp only <;> omega

/-- A pixel is a target of one of the first k bits of a byte, that bit being 1. -/
def coversUpTo (x y : Nat) (b : Byte) (k : Nat) (r : Fin 32) (c : Fin 64) : Bool :=
  (List.range k).any fun j => spriteBit b j && linearTarget x y j == 64 * r.val + c.val

theorem coversUpTo_succ (x y : Nat) (b : Byte) (k : Nat) (r : Fin 32) (c : Fin 64) :
    coversUpTo x y b (k + 1) r c =
      (coversUpTo x y b k r c || (spriteBit b k && linearTarget x y k == 64 * r.val + c.val)) := by
  simp [coversUpTo, List.range_succ]

theorem coversUpTo_iff {x y : Nat} {b : Byte} {k : Nat} {r : Fin 32} {c : Fin 64} :
    coversUpTo x y b k r c = true ↔
      ∃ j < k, spriteBit b j = true ∧ linearTarget x y j = 64 * r.val + c.val := by
  simp [coversUpTo]

/-- The first k bits of a draw call: an XOR with their targets, and a collision exactly where one was on. -/
theorem blit_prefix (x y : Nat) (b : Byte) (fb : Framebuffer) (hx : x < 64) :
    ∀ k ≤ 8,
      (∀ r c, ((List.range k).foldl (blitBit x y b) (fb, false)).1.get r c =
        (fb.get r c ^^ coversUpTo x y b k r c)) ∧
      (((List.range k).foldl (blitBit x y b) (fb, false)).2 = true ↔
        ∃ r c, coversUpTo x y b k r c = true ∧ fb.get r c = true) := by
  intro k
  induction k with
  | zero => intro _; simp [coversUpTo]
  | succ k ih =>
    intro hk
    obtain ⟨hget, hcoll⟩ := ih (by omega)
    rw [List.range_succ, List.foldl_append]
    generalize (List.range k).foldl (blitBit x y b) (fb, false) = acc at hget hcoll
    simp only [List.foldl_cons, List.foldl_nil, blitBit]
    have htgt := fun r c => blitTarget_eq_iff (x := x) (y := y) (j := k) (by omega) r c
    split
    · rename_i hbit
      have hfresh : ∀ r c, linearTarget x y k = 64 * r.val + c.val → coversUpTo x y b k r c = false := by
        intro r c he
        rw [Bool.eq_false_iff]
        intro hcov
        obtain ⟨j, hj, -, hje⟩ := coversUpTo_iff.1 hcov
        unfold linearTarget at he hje
        omega
      constructor
      · intro r c
        rw [Framebuffer.get_toggle, hget, coversUpTo_succ, hbit]
        by_cases he : linearTarget x y k = 64 * r.val + c.val
        · rw [decide_eq_true ((htgt r c).2 he), hfresh r c he, he]; simp
        · rw [decide_eq_false (fun h => he ((htgt r c).1 h))]
          simp [he]
      · rw [Bool.or_eq_true, hcoll]
        constructor
        · rintro (⟨r, c, hc1, hc2⟩ | hon)
          · exact ⟨r, c, by rw [coversUpTo_succ, hc1, Bool.true_or], hc2⟩
          · have he := (htgt _ _).1 ⟨rfl, rfl⟩
            refine ⟨Fin.ofNat 32 (blitTarget (x + k) y).1, Fin.ofNat 64 (blitTarget (x + k) y).2, ?_, ?_⟩
            · rw [coversUpTo_succ, hbit, he]
              simp
            · rw [hget, hfresh _ _ he] at hon
              simpa using hon
        · rintro ⟨r, c, hc1, hc2⟩
          rw [coversUpTo_succ, Bool.or_eq_true] at hc1
          rcases hc1 with hc1 | hc1
          · exact .inl ⟨r, c, hc1, hc2⟩
          · simp only [Bool.and_eq_true, beq_iff_eq] at hc1
            obtain ⟨h1, h2⟩ := (htgt r c).2 hc1.2
            refine .inr ?_
            rw [← h1, ← h2, hget, hfresh r c hc1.2, hc2]
            rfl
    · rename_i hbit
      have hb : spriteBit b k = false := by simpa using hbit
      constructor
      · intro r c
        rw [hget, coversUpTo_succ, hb]
        simp
      · rw [hcoll]
        simp [coversUpTo_succ, hb]

/-- draw under WRAP, pixel by pixel (R140, R143). -/
theorem Framebuffer.get_draw (fb : Framebuffer) (x y : Nat) (b : Byte) (hx : x < 64) (r : Fin 32) (c : Fin 64) :
    (fb.draw x y b).1.get r c = (fb.get r c ^^ coversUpTo x y b 8 r c) :=
  (blit_prefix x y b fb hx 8 (by omega)).1 r c

/-- draw's collision flag: exactly when a 1 bit targets a pixel that was on (R143). -/
theorem Framebuffer.draw_collides (fb : Framebuffer) (x y : Nat) (b : Byte) (hx : x < 64) :
    (fb.draw x y b).2 = true ↔ ∃ r c, coversUpTo x y b 8 r c = true ∧ fb.get r c = true :=
  (blit_prefix x y b fb hx 8 (by omega)).2

/-- No target of a draw at (x, y) lies at row 32 or more. -/
theorem firstTargetBelow_eq_none {x y : Nat} (_hx : x < 64) :
    firstTargetBelow x y = none ↔ y < 32 ∧ (64 ≤ x + 7 → y + 1 < 32) := by
  unfold firstTargetBelow
  simp only [List.find?_eq_none, List.mem_map, List.mem_range, decide_eq_true_eq, not_le]
  constructor
  · intro h
    have h0 := h _ ⟨0, by omega, rfl⟩
    have h7 := h _ ⟨7, by omega, rfl⟩
    unfold blitTarget at h0 h7
    constructor
    · rw [if_neg (by omega)] at h0
      exact h0
    · intro h64
      rw [if_pos (by omega)] at h7
      exact h7
  · rintro ⟨h1, h2⟩ t ⟨j, hj, rfl⟩
    unfold blitTarget
    split
    · exact h2 (by omega)
    · exact h1

/-- drawUnder inside the grid, or under WRAP, is draw (R142). -/
theorem drawUnder_eq_draw {o : Config.VerticalOverflow} {fb : Framebuffer} {x y : Nat} {b : Byte}
    (h : o = .wrap ∨ firstTargetBelow x y = none) : drawUnder o fb x y b = .ok (fb.draw x y b) := by
  unfold drawUnder
  split
  · rfl
  · rcases h with h | h
    · cases h
    · rw [h]

/-- A pixel is a target of a 1 bit of one of k sprite rows from row r0 on, row r holding the byte `f r`. -/
def rowsCover (f : Nat → Byte) (x0 y0 r0 k : Nat) (r : Fin 32) (c : Fin 64) : Bool :=
  (List.range k).any fun m => coversUpTo x0 (y0 + (r0 + m)) (f (r0 + m)) 8 r c

theorem rowsCover_succ (f : Nat → Byte) (x0 y0 r0 k : Nat) (r : Fin 32) (c : Fin 64) :
    rowsCover f x0 y0 r0 (k + 1) r c =
      (coversUpTo x0 (y0 + r0) (f r0) 8 r c || rowsCover f x0 y0 (r0 + 1) k r c) := by
  simp only [rowsCover, List.range_succ_eq_map, List.any_cons, List.any_map, Nat.add_zero]
  congr 2
  funext m
  simp only [Function.comp, Nat.succ_eq_add_one]
  rw [show r0 + (m + 1) = r0 + 1 + m by omega]

/-- The rows of one DRW never meet (R148): a pixel of row r0 is no target of a later row. -/
theorem rowsCover_disjoint {f : Nat → Byte} {x0 y0 r0 k : Nat} {r : Fin 32} {c : Fin 64} (_hx : x0 < 64)
    (hk : k ≤ 15) {b : Byte} (h : coversUpTo x0 (y0 + r0) b 8 r c = true) :
    rowsCover f x0 y0 (r0 + 1) k r c = false := by
  rw [Bool.eq_false_iff]
  intro h'
  simp only [rowsCover, List.any_eq_true, List.mem_range] at h'
  obtain ⟨m, hm, hcov⟩ := h'
  obtain ⟨j, hj, -, he⟩ := coversUpTo_iff.1 h
  obtain ⟨j', hj', -, he'⟩ := coversUpTo_iff.1 hcov
  unfold linearTarget at he he'
  omega

/-- What the rows of a DRW do when no access and no target is out of range: an XOR with the rows' mask, and a
collision exactly where the mask meets a pixel that was on (R146, R148). -/
theorem drawRows_spec (s : State) (x0 y0 : Nat) (hx : x0 < 64) :
    ∀ k r0 (acc : Framebuffer × Bool), k ≤ 15 →
      (∀ m < k, s.atIndex (r0 + m) < memSize) →
      (s.params.verticalOverflow = .wrap ∨ ∀ m < k, firstTargetBelow x0 (y0 + (r0 + m)) = none) →
      ∃ d, drawRows s x0 y0 k r0 acc = .ok d ∧
        (∀ r c, d.1.get r c = (acc.1.get r c ^^ rowsCover (fun m => s.byteAt (s.atIndex m)) x0 y0 r0 k r c)) ∧
        (d.2 = true ↔ acc.2 = true ∨
          ∃ r c, rowsCover (fun m => s.byteAt (s.atIndex m)) x0 y0 r0 k r c = true ∧ acc.1.get r c = true) := by
  intro k
  induction k with
  | zero => intro r0 acc _ _ _; exact ⟨acc, rfl, by simp [rowsCover], by simp [rowsCover]⟩
  | succ k ih =>
    intro r0 acc hk hmem hgrid
    have hread : s.memRead (s.atIndex r0) = .ok (s.byteAt (s.atIndex r0)) :=
      State.memRead_eq_ok.2 ⟨hmem 0 (by omega), rfl⟩
    have hdraw : drawUnder s.params.verticalOverflow acc.1 x0 (y0 + r0) (s.byteAt (s.atIndex r0)) =
        .ok (acc.1.draw x0 (y0 + r0) (s.byteAt (s.atIndex r0))) :=
      drawUnder_eq_draw (hgrid.imp id fun h => h 0 (by omega))
    obtain ⟨d, hd, hget, hcoll⟩ := ih (r0 + 1)
      ((acc.1.draw x0 (y0 + r0) (s.byteAt (s.atIndex r0))).1,
        acc.2 || (acc.1.draw x0 (y0 + r0) (s.byteAt (s.atIndex r0))).2) (by omega)
      (fun m hm => by have := hmem (m + 1) (by omega); rwa [show r0 + 1 + m = r0 + (m + 1) by omega])
      (hgrid.imp id fun h m hm => by
        have := h (m + 1) (by omega)
        rwa [show r0 + 1 + m = r0 + (m + 1) by omega])
    refine ⟨d, ?_, ?_, ?_⟩
    · simp only [drawRows, hread, hdraw]
      exact hd
    · intro r c
      rw [hget, Framebuffer.get_draw _ _ _ _ hx, rowsCover_succ]
      by_cases hc : coversUpTo x0 (y0 + r0) (s.byteAt (s.atIndex r0)) 8 r c = true
      · rw [hc, rowsCover_disjoint hx (by omega) hc]
        simp
      · rw [Bool.eq_false_iff.2 hc]
        simp
    · rw [hcoll]
      simp only [Bool.or_eq_true, Framebuffer.draw_collides _ _ _ _ hx, Framebuffer.get_draw _ _ _ _ hx,
        rowsCover_succ]
      constructor
      · rintro ((h | ⟨r, c, h1, h2⟩) | ⟨r, c, h1, h2⟩)
        · exact .inl h
        · exact .inr ⟨r, c, .inl h1, h2⟩
        · refine .inr ⟨r, c, .inr h1, ?_⟩
          by_cases hc : coversUpTo x0 (y0 + r0) (s.byteAt (s.atIndex r0)) 8 r c = true
          · rw [rowsCover_disjoint hx (by omega) hc] at h1
            cases h1
          · rw [Bool.eq_false_iff.2 hc] at h2
            simpa using h2
      · rintro (h | ⟨r, c, h1 | h1, h2⟩)
        · exact .inl (.inl h)
        · exact .inl (.inr ⟨r, c, h1, h2⟩)
        · refine .inr ⟨r, c, h1, ?_⟩
          by_cases hc : coversUpTo x0 (y0 + r0) (s.byteAt (s.atIndex r0)) 8 r c = true
          · rw [rowsCover_disjoint hx (by omega) hc] at h1
            cases h1
          · rw [Bool.eq_false_iff.2 hc, h2]
            rfl

/-- The rows before a row that stops a DRW do not stop it, and that row's fault is the one reported (R228). -/
theorem drawRows_fault (s : State) (x0 y0 : Nat) {c : Cause} :
    ∀ k r0 m (acc : Framebuffer × Bool), m < k →
      (∀ j < m, s.atIndex (r0 + j) < memSize ∧
        (s.params.verticalOverflow = .wrap ∨ firstTargetBelow x0 (y0 + (r0 + j)) = none)) →
      ((memSize ≤ s.atIndex (r0 + m) ∧ c = outOfBoundsAt (s.atIndex (r0 + m))) ∨
        (s.atIndex (r0 + m) < memSize ∧ s.params.verticalOverflow = .fault ∧
          ∃ t, firstTargetBelow x0 (y0 + (r0 + m)) = some t ∧ c = ⟨.framebufferOutOfBounds, .target t.1 t.2⟩)) →
      drawRows s x0 y0 k r0 acc = .error c := by
  intro k
  induction k with
  | zero => intro r0 m acc h; omega
  | succ k ih =>
    intro r0 m acc hm hbefore hat
    cases m with
    | zero =>
      simp only [Nat.add_zero] at hat
      rcases hat with ⟨hge, rfl⟩ | ⟨hlt, hf, t, ht, rfl⟩
      · simp only [drawRows, State.memRead_eq_error.2 ⟨hge, rfl⟩]
      · simp only [drawRows, State.memRead_eq_ok.2 ⟨hlt, rfl⟩, hf, drawUnder, ht]
    | succ m =>
      obtain ⟨h0, hg0⟩ := hbefore 0 (by omega)
      simp only [Nat.add_zero] at h0 hg0
      simp only [drawRows, State.memRead_eq_ok.2 ⟨h0, rfl⟩, drawUnder_eq_draw hg0]
      refine ih (r0 + 1) m _ (by omega) (fun j hj => ?_) ?_
      · have := hbefore (j + 1) (by omega)
        rwa [show r0 + 1 + j = r0 + (j + 1) by omega]
      · rwa [show r0 + 1 + m = r0 + (m + 1) by omega]

end Sys2Proof.Machine
end

