-- ==== Sys2Proof/Laws/Effects.lean ====
section
/-! SUPPORT. Everything an instruction can do to the state, said once, so that a claim over all instructions needs no
unfolding of a meaning. -/

namespace Sys2Proof.Machine

variable {i : Instr} {s t : State} {c : Cause} {body : Result}

/-- The shapes of a next state. -/
inductive Effect (i : Instr) (s : State) : State → Prop where
  /-- A fault before any write (R229). -/
  | early (c : Cause) : Effect i s (s.faulted s.fetchedWord (some (tagOf i)) c)
  /-- A fault after a possible write (R110). -/
  | late (c : Cause) (t : State) (kind : c.kind = .outOfBounds ∨ c.kind = .framebufferOutOfBounds)
      (h : raiseUnspecified i c s = .next t) : Effect i s t
  /-- General registers written, then the advance. -/
  | registers (v : Vector Byte 16) : Effect i s { s with v := v, pc := s.pc + 2 }
  /-- LD Vx, K with no key. -/
  | wait : Effect i s s
  /-- I and perhaps general registers written, COMPLETE only. -/
  | index (v : Vector Byte 16) (w : Word) (h : s.params.profile = .complete) :
      Effect i s { s with v := v, i := w, pc := s.pc + 2 }
  /-- LD I, nnn. -/
  | setIndex (nnn : Addr) : Effect i s { s with i := zext16 nnn, pc := s.pc + 2 }
  /-- A skip, taken or not. -/
  | skip (b : Bool) : Effect i s (s.skipIf b)
  /-- JP nnn. -/
  | jump (nnn : Addr) : Effect i s { s with pc := zext16 nnn }
  /-- JP V0, nnn. -/
  | jumpOffset (nnn : Addr) (b : Byte) : Effect i s { s with pc := offsetTarget nnn b }
  /-- CALL nnn. -/
  | call (nnn : Addr) (h : s.sp.toNat < 255) (hi : i = .call nnn) :
      Effect i s
        { s with pc := zext16 nnn, stack := s.stack.set s.sp.toNat (s.pc + 2) h, sp := s.sp + 1 }
  /-- RET. -/
  | ret (h : s.sp ≠ 0) (hi : i = .ret) :
      Effect i s
        { s with pc := s.stack[s.sp.toNat - 1]'(by have := s.sp.isLt; omega), sp := s.sp - 1 }
  /-- CLS and DRW. -/
  | display (f : Framebuffer) (v : Vector Byte 16) (hi : i = .cls ∨ ∃ x y n, i = .drw x y n) :
      Effect i s { s with fb := f, v := v, pc := s.pc + 2 }
  /-- The timer loads, COMPLETE only. -/
  | timers (d u : Byte) (h : s.params.profile = .complete) :
      Effect i s { s with dt := d, st := u, pc := s.pc + 2 }
  /-- The block stores, COMPLETE only; the canonical form of memory is kept. -/
  | memory (m : List Host.Cell) (w : Word) (h : s.params.profile = .complete)
      (hi : (∃ x, i = .ldB x) ∨ ∃ x, i = .ldIV x)
      (hw : Memory.wf s.background s.mem → Memory.wf s.background m) :
      Effect i s { s with mem := m, i := w, pc := s.pc + 2 }

/-- The rows of a DRW stop for nothing but an access or a target out of range. -/
theorem drawRows_error (x0 y0 : Nat) :
    ∀ k r acc, drawRows s x0 y0 k r acc = .error c →
      c.kind = .outOfBounds ∨ c.kind = .framebufferOutOfBounds := by
  intro k
  induction k with
  | zero => intro r acc h; cases h
  | succ k ih =>
    intro r acc h
    simp only [drawRows] at h
    split at h
    · rename_i hr
      cases h
      rw [(State.memRead_eq_error.1 hr).2]
      exact .inl rfl
    · split at h
      · rename_i hd
        cases h
        unfold drawUnder at hd
        split at hd
        · cases hd
        · split at hd <;> cases hd
          exact .inr rfl
      · exact ih _ _ h

theorem State.storeBytes_error_kind (bs : List Byte) :
    ∀ (s : State) (a : Nat), s.storeBytes a bs = .error c → c.kind = .outOfBounds := by
  induction bs with
  | nil => intro s a h; cases h
  | cons b bs ih =>
    intro s a h
    simp only [State.storeBytes] at h
    split at h
    · rename_i hw
      cases h
      rw [(State.memWrite_eq_error.1 hw).2]
      rfl
    · exact ih _ _ h

theorem State.loadRegs_error_kind (k : Nat) :
    ∀ (s : State) (r a : Nat), s.loadRegs k r a = .error c → c.kind = .outOfBounds := by
  induction k with
  | zero => intro s r a h; cases h
  | succ k ih =>
    intro s r a h
    simp only [State.loadRegs] at h
    split at h
    · rename_i hr
      cases h
      rw [(State.memRead_eq_error.1 hr).2]
      rfl
    · exact ih _ _ _ h

theorem effect_of_whenExecuted (h : whenExecuted i s body = .next t)
    (hb : executed s.params.profile (tagOf i) = true → body = .next t → Effect i s t) : Effect i s t := by
  unfold whenExecuted at h
  split at h
  · rename_i hx
    exact hb hx h
  · cases h
    exact .early _

/-- A form the source does not execute runs under COMPLETE alone. -/
theorem complete_of_executed {x : Tag} (h : executed s.params.profile x = true)
    (hx : sourceExecutes x = false) : s.params.profile = .complete := by
  cases hp : s.params.profile
  · rw [hp] at h
    simp [executed, hx] at h
  · rfl

/-- Everything an instruction can do. -/
theorem exec_effect (h : exec i s = .next t) : Effect i s t := by
  cases i <;> simp only [exec] at h
  case sys => cases h; exact .early _
  all_goals refine effect_of_whenExecuted h fun hx hb => ?_
  all_goals clear h
  case cls => cases hb; exact .display _ s.v (.inl rfl)
  case drw x y n =>
    split at hb
    · rename_i hd
      exact .late _ _ (drawRows_error _ _ _ _ _ hd) hb
    · cases hb
      exact .display _ _ (.inr ⟨x, y, n, rfl⟩)
  case ret =>
    split at hb
    · cases hb; exact .early _
    · rename_i hp
      obtain ⟨h1, hp⟩ := State.pop_eq_ok.1 hp
      cases hp; cases hb; exact .ret h1 rfl
  case call =>
    split at hb
    · cases hb; exact .early _
    · rename_i hp
      obtain ⟨h1, rfl⟩ := State.push_eq_ok.1 hp
      cases hb; exact .call _ h1 rfl
  case jp => cases hb; exact .jump _
  case jpV0 => cases hb; exact .jumpOffset _ _
  case seVB => cases hb; exact .skip _
  case sneVB => cases hb; exact .skip _
  case seVV => cases hb; exact .skip _
  case sneVV => cases hb; exact .skip _
  case skp =>
    split at hb
    · cases hb; exact .early _
    · cases hb; exact .skip _
  case sknp =>
    split at hb
    · cases hb; exact .early _
    · cases hb; exact .skip _
  case setI => cases hb; exact .setIndex _
  case ldK =>
    split at hb
    · cases hb; exact .wait
    · cases hb; exact .registers _
  case addI => cases hb; exact .index s.v _ (complete_of_executed hx rfl)
  case ldF => cases hb; exact .index s.v _ (complete_of_executed hx rfl)
  case ldDT => cases hb; exact .timers _ s.st (complete_of_executed hx rfl)
  case ldST => cases hb; exact .timers s.dt _ (complete_of_executed hx rfl)
  case ldB x =>
    split at hb
    · rename_i hs
      exact .late _ _ (.inl (State.storeBytes_error_kind _ _ _ hs)) hb
    · rename_i hs
      obtain ⟨⟨m, rfl⟩, hw⟩ := State.storeBytes_ok _ _ hs
      cases hb; exact .memory m s.i (complete_of_executed hx rfl) (.inl ⟨x, rfl⟩) hw
  case ldIV x =>
    split at hb
    · rename_i hs
      exact .late _ _ (.inl (State.storeBytes_error_kind _ _ _ hs)) hb
    · rename_i hs
      obtain ⟨⟨m, rfl⟩, hw⟩ := State.storeBytes_ok _ _ hs
      cases hb; exact .memory m _ (complete_of_executed hx rfl) (.inr ⟨x, rfl⟩) hw
  case ldVI x =>
    split at hb
    · rename_i hl
      exact .late _ _ (.inl (State.loadRegs_error_kind _ _ _ _ hl)) hb
    · rename_i hl
      obtain ⟨v, rfl⟩ := State.loadRegs_ok _ _ _ _ _ hl
      cases hb; exact .index _ _ (complete_of_executed hx rfl)
  all_goals (cases hb; exact .registers _)

end Sys2Proof.Machine
end

