-- ==== Sys2Proof/Laws/Fields.lean ====
section
/-! SUPPORT. The fields of a word put together from its parts (R71, R72). -/

namespace Sys2Proof

variable (f x y n : Nib) (kk : Byte) (nnn : Addr)

@[simp] theorem Field.f_formatNNN : Field.f (formatNNN f nnn) = f := by
  unfold Field.f formatNNN
  refine BitVec.eq_of_getLsbD_eq fun i hi => ?_
  simp only [BitVec.getLsbD_extractLsb', BitVec.getLsbD_append]
  interval_cases i <;> rfl

@[simp] theorem Field.nnn_formatNNN : Field.nnn (formatNNN f nnn) = nnn := by
  unfold Field.nnn formatNNN
  refine BitVec.eq_of_getLsbD_eq fun i hi => ?_
  simp only [BitVec.getLsbD_extractLsb', BitVec.getLsbD_append]
  interval_cases i <;> rfl

@[simp] theorem Field.f_formatXKK : Field.f (formatXKK f x kk) = f := by
  unfold Field.f formatXKK
  refine BitVec.eq_of_getLsbD_eq fun i hi => ?_
  simp only [BitVec.getLsbD_extractLsb', BitVec.getLsbD_append]
  interval_cases i <;> rfl

@[simp] theorem Field.x_formatXKK : Field.x (formatXKK f x kk) = x := by
  unfold Field.x formatXKK
  refine BitVec.eq_of_getLsbD_eq fun i hi => ?_
  simp only [BitVec.getLsbD_extractLsb', BitVec.getLsbD_append]
  interval_cases i <;> rfl

@[simp] theorem Field.kk_formatXKK : Field.kk (formatXKK f x kk) = kk := by
  unfold Field.kk formatXKK
  refine BitVec.eq_of_getLsbD_eq fun i hi => ?_
  simp only [BitVec.getLsbD_extractLsb', BitVec.getLsbD_append]
  interval_cases i <;> rfl

@[simp] theorem Field.f_formatXYN : Field.f (formatXYN f x y n) = f := by
  unfold Field.f formatXYN
  refine BitVec.eq_of_getLsbD_eq fun i hi => ?_
  simp only [BitVec.getLsbD_extractLsb', BitVec.getLsbD_append]
  interval_cases i <;> rfl

@[simp] theorem Field.x_formatXYN : Field.x (formatXYN f x y n) = x := by
  unfold Field.x formatXYN
  refine BitVec.eq_of_getLsbD_eq fun i hi => ?_
  simp only [BitVec.getLsbD_extractLsb', BitVec.getLsbD_append]
  interval_cases i <;> rfl

@[simp] theorem Field.y_formatXYN : Field.y (formatXYN f x y n) = y := by
  unfold Field.y formatXYN
  refine BitVec.eq_of_getLsbD_eq fun i hi => ?_
  simp only [BitVec.getLsbD_extractLsb', BitVec.getLsbD_append]
  interval_cases i <;> rfl

@[simp] theorem Field.n_formatXYN : Field.n (formatXYN f x y n) = n := by
  unfold Field.n formatXYN
  refine BitVec.eq_of_getLsbD_eq fun i hi => ?_
  simp only [BitVec.getLsbD_extractLsb', BitVec.getLsbD_append]
  interval_cases i <;> rfl

/-- A word is its family nibble and its address field. -/
theorem Field.eq_formatNNN (w : Word) : w = formatNNN (Field.f w) (Field.nnn w) := by
  unfold Field.f Field.nnn formatNNN
  refine BitVec.eq_of_getLsbD_eq fun i hi => ?_
  simp only [BitVec.getLsbD_append, BitVec.getLsbD_extractLsb']
  interval_cases i <;> rfl

/-- A word is its family nibble, its index x and its byte kk. -/
theorem Field.eq_formatXKK (w : Word) : w = formatXKK (Field.f w) (Field.x w) (Field.kk w) := by
  unfold Field.f Field.x Field.kk formatXKK
  refine BitVec.eq_of_getLsbD_eq fun i hi => ?_
  simp only [BitVec.getLsbD_append, BitVec.getLsbD_extractLsb']
  interval_cases i <;> rfl

/-- A word is its four nibbles. -/
theorem Field.eq_formatXYN (w : Word) :
    w = formatXYN (Field.f w) (Field.x w) (Field.y w) (Field.n w) := by
  unfold Field.f Field.x Field.y Field.n formatXYN
  refine BitVec.eq_of_getLsbD_eq fun i hi => ?_
  simp only [BitVec.getLsbD_append, BitVec.getLsbD_extractLsb']
  interval_cases i <;> rfl

/-- A word whose family nibble is not 0 is neither CLS nor RET, so its family decides (R74, R75). -/
theorem decodeWord_of_family {w : Word} (h : Field.f w ≠ 0) : decodeWord w = decodeFamily w := by
  have h1 : w ≠ 0x00E0#16 := by rintro rfl; exact h (by decide)
  have h2 : w ≠ 0x00EE#16 := by rintro rfl; exact h (by decide)
  simp [decodeWord, h1, h2]

end Sys2Proof
end

