-- ==== Sys2Proof/Laws/PerInstr.lean ====
section
/-! SUPPORT. One statement about each instruction as syntax, constructor by constructor: its encoded word lies in
its own row of the opcode map (R82). -/

namespace Sys2Proof.Laws.TableRow

/-- The match and mask columns of R82. -/
def row : Instr → Word × Word
  | .cls => (0x00E0#16, 0xFFFF#16)
  | .ret => (0x00EE#16, 0xFFFF#16)
  | .sys _ => (0x0000#16, 0xF000#16)
  | .jp _ => (0x1000#16, 0xF000#16)
  | .call _ => (0x2000#16, 0xF000#16)
  | .seVB _ _ => (0x3000#16, 0xF000#16)
  | .sneVB _ _ => (0x4000#16, 0xF000#16)
  | .seVV _ _ => (0x5000#16, 0xF000#16)
  | .ldV _ _ => (0x6000#16, 0xF000#16)
  | .addV _ _ => (0x7000#16, 0xF000#16)
  | .ldVV _ _ => (0x8000#16, 0xF00F#16)
  | .or _ _ => (0x8001#16, 0xF00F#16)
  | .and _ _ => (0x8002#16, 0xF00F#16)
  | .xor _ _ => (0x8003#16, 0xF00F#16)
  | .addVV _ _ => (0x8004#16, 0xF00F#16)
  | .sub _ _ => (0x8005#16, 0xF00F#16)
  | .shr _ _ => (0x8006#16, 0xF00F#16)
  | .subn _ _ => (0x8007#16, 0xF00F#16)
  | .shl _ _ => (0x800E#16, 0xF00F#16)
  | .sneVV _ _ => (0x9000#16, 0xF000#16)
  | .setI _ => (0xA000#16, 0xF000#16)
  | .jpV0 _ => (0xB000#16, 0xF000#16)
  | .rnd _ _ => (0xC000#16, 0xF000#16)
  | .drw _ _ _ => (0xD000#16, 0xF000#16)
  | .skp _ => (0xE09E#16, 0xF0FF#16)
  | .sknp _ => (0xE0A1#16, 0xF0FF#16)
  | .ldVDT _ => (0xF007#16, 0xF0FF#16)
  | .ldK _ => (0xF00A#16, 0xF0FF#16)
  | .ldDT _ => (0xF015#16, 0xF0FF#16)
  | .ldST _ => (0xF018#16, 0xF0FF#16)
  | .addI _ => (0xF01E#16, 0xF0FF#16)
  | .ldF _ => (0xF029#16, 0xF0FF#16)
  | .ldB _ => (0xF033#16, 0xF0FF#16)
  | .ldIV _ => (0xF055#16, 0xF0FF#16)
  | .ldVI _ => (0xF065#16, 0xF0FF#16)

/-- word & mask = match, for the word the encoder gives the instruction (R82). -/
def Statement (i : Instr) : Prop := encode i &&& (row i).2 = (row i).1

theorem cls : Statement .cls := rfl

theorem ret : Statement .ret := rfl

theorem sys (nnn : Addr) : Statement (.sys nnn) := by
  refine BitVec.eq_of_getLsbD_eq fun i hi => ?_
  simp only [encode, formatNNN, row, BitVec.getLsbD_and, BitVec.getLsbD_append]
  interval_cases i <;> simp

theorem jp (nnn : Addr) : Statement (.jp nnn) := by
  refine BitVec.eq_of_getLsbD_eq fun i hi => ?_
  simp only [encode, formatNNN, row, BitVec.getLsbD_and, BitVec.getLsbD_append]
  interval_cases i <;> simp

theorem call (nnn : Addr) : Statement (.call nnn) := by
  refine BitVec.eq_of_getLsbD_eq fun i hi => ?_
  simp only [encode, formatNNN, row, BitVec.getLsbD_and, BitVec.getLsbD_append]
  interval_cases i <;> simp

theorem seVB (x : Nib) (kk : Byte) : Statement (.seVB x kk) := by
  refine BitVec.eq_of_getLsbD_eq fun i hi => ?_
  simp only [encode, formatXKK, row, BitVec.getLsbD_and, BitVec.getLsbD_append]
  interval_cases i <;> simp

theorem sneVB (x : Nib) (kk : Byte) : Statement (.sneVB x kk) := by
  refine BitVec.eq_of_getLsbD_eq fun i hi => ?_
  simp only [encode, formatXKK, row, BitVec.getLsbD_and, BitVec.getLsbD_append]
  interval_cases i <;> simp

theorem seVV (x : Nib) (y : Nib) : Statement (.seVV x y) := by
  refine BitVec.eq_of_getLsbD_eq fun i hi => ?_
  simp only [encode, formatXYN, row, BitVec.getLsbD_and, BitVec.getLsbD_append]
  interval_cases i <;> simp

theorem ldV (x : Nib) (kk : Byte) : Statement (.ldV x kk) := by
  refine BitVec.eq_of_getLsbD_eq fun i hi => ?_
  simp only [encode, formatXKK, row, BitVec.getLsbD_and, BitVec.getLsbD_append]
  interval_cases i <;> simp

theorem addV (x : Nib) (kk : Byte) : Statement (.addV x kk) := by
  refine BitVec.eq_of_getLsbD_eq fun i hi => ?_
  simp only [encode, formatXKK, row, BitVec.getLsbD_and, BitVec.getLsbD_append]
  interval_cases i <;> simp

theorem ldVV (x : Nib) (y : Nib) : Statement (.ldVV x y) := by
  refine BitVec.eq_of_getLsbD_eq fun i hi => ?_
  simp only [encode, formatXYN, row, BitVec.getLsbD_and, BitVec.getLsbD_append]
  interval_cases i <;> simp

theorem or (x : Nib) (y : Nib) : Statement (.or x y) := by
  refine BitVec.eq_of_getLsbD_eq fun i hi => ?_
  simp only [encode, formatXYN, row, BitVec.getLsbD_and, BitVec.getLsbD_append]
  interval_cases i <;> simp

theorem and (x : Nib) (y : Nib) : Statement (.and x y) := by
  refine BitVec.eq_of_getLsbD_eq fun i hi => ?_
  simp only [encode, formatXYN, row, BitVec.getLsbD_and, BitVec.getLsbD_append]
  interval_cases i <;> simp

theorem xor (x : Nib) (y : Nib) : Statement (.xor x y) := by
  refine BitVec.eq_of_getLsbD_eq fun i hi => ?_
  simp only [encode, formatXYN, row, BitVec.getLsbD_and, BitVec.getLsbD_append]
  interval_cases i <;> simp

theorem addVV (x : Nib) (y : Nib) : Statement (.addVV x y) := by
  refine BitVec.eq_of_getLsbD_eq fun i hi => ?_
  simp only [encode, formatXYN, row, BitVec.getLsbD_and, BitVec.getLsbD_append]
  interval_cases i <;> simp

theorem sub (x : Nib) (y : Nib) : Statement (.sub x y) := by
  refine BitVec.eq_of_getLsbD_eq fun i hi => ?_
  simp only [encode, formatXYN, row, BitVec.getLsbD_and, BitVec.getLsbD_append]
  interval_cases i <;> simp

theorem shr (x : Nib) (y : Nib) : Statement (.shr x y) := by
  refine BitVec.eq_of_getLsbD_eq fun i hi => ?_
  simp only [encode, formatXYN, row, BitVec.getLsbD_and, BitVec.getLsbD_append]
  interval_cases i <;> simp

theorem subn (x : Nib) (y : Nib) : Statement (.subn x y) := by
  refine BitVec.eq_of_getLsbD_eq fun i hi => ?_
  simp only [encode, formatXYN, row, BitVec.getLsbD_and, BitVec.getLsbD_append]
  interval_cases i <;> simp

theorem shl (x : Nib) (y : Nib) : Statement (.shl x y) := by
  refine BitVec.eq_of_getLsbD_eq fun i hi => ?_
  simp only [encode, formatXYN, row, BitVec.getLsbD_and, BitVec.getLsbD_append]
  interval_cases i <;> simp

theorem sneVV (x : Nib) (y : Nib) : Statement (.sneVV x y) := by
  refine BitVec.eq_of_getLsbD_eq fun i hi => ?_
  simp only [encode, formatXYN, row, BitVec.getLsbD_and, BitVec.getLsbD_append]
  interval_cases i <;> simp

theorem setI (nnn : Addr) : Statement (.setI nnn) := by
  refine BitVec.eq_of_getLsbD_eq fun i hi => ?_
  simp only [encode, formatNNN, row, BitVec.getLsbD_and, BitVec.getLsbD_append]
  interval_cases i <;> simp

theorem jpV0 (nnn : Addr) : Statement (.jpV0 nnn) := by
  refine BitVec.eq_of_getLsbD_eq fun i hi => ?_
  simp only [encode, formatNNN, row, BitVec.getLsbD_and, BitVec.getLsbD_append]
  interval_cases i <;> simp

theorem rnd (x : Nib) (kk : Byte) : Statement (.rnd x kk) := by
  refine BitVec.eq_of_getLsbD_eq fun i hi => ?_
  simp only [encode, formatXKK, row, BitVec.getLsbD_and, BitVec.getLsbD_append]
  interval_cases i <;> simp

theorem drw (x : Nib) (y : Nib) (n : Nib) : Statement (.drw x y n) := by
  refine BitVec.eq_of_getLsbD_eq fun i hi => ?_
  simp only [encode, formatXYN, row, BitVec.getLsbD_and, BitVec.getLsbD_append]
  interval_cases i <;> simp

theorem skp (x : Nib) : Statement (.skp x) := by
  refine BitVec.eq_of_getLsbD_eq fun i hi => ?_
  simp only [encode, formatXKK, row, BitVec.getLsbD_and, BitVec.getLsbD_append]
  interval_cases i <;> simp

theorem sknp (x : Nib) : Statement (.sknp x) := by
  refine BitVec.eq_of_getLsbD_eq fun i hi => ?_
  simp only [encode, formatXKK, row, BitVec.getLsbD_and, BitVec.getLsbD_append]
  interval_cases i <;> simp

theorem ldVDT (x : Nib) : Statement (.ldVDT x) := by
  refine BitVec.eq_of_getLsbD_eq fun i hi => ?_
  simp only [encode, formatXKK, row, BitVec.getLsbD_and, BitVec.getLsbD_append]
  interval_cases i <;> simp

theorem ldK (x : Nib) : Statement (.ldK x) := by
  refine BitVec.eq_of_getLsbD_eq fun i hi => ?_
  simp only [encode, formatXKK, row, BitVec.getLsbD_and, BitVec.getLsbD_append]
  interval_cases i <;> simp

theorem ldDT (x : Nib) : Statement (.ldDT x) := by
  refine BitVec.eq_of_getLsbD_eq fun i hi => ?_
  simp only [encode, formatXKK, row, BitVec.getLsbD_and, BitVec.getLsbD_append]
  interval_cases i <;> simp

theorem ldST (x : Nib) : Statement (.ldST x) := by
  refine BitVec.eq_of_getLsbD_eq fun i hi => ?_
  simp only [encode, formatXKK, row, BitVec.getLsbD_and, BitVec.getLsbD_append]
  interval_cases i <;> simp

theorem addI (x : Nib) : Statement (.addI x) := by
  refine BitVec.eq_of_getLsbD_eq fun i hi => ?_
  simp only [encode, formatXKK, row, BitVec.getLsbD_and, BitVec.getLsbD_append]
  interval_cases i <;> simp

theorem ldF (x : Nib) : Statement (.ldF x) := by
  refine BitVec.eq_of_getLsbD_eq fun i hi => ?_
  simp only [encode, formatXKK, row, BitVec.getLsbD_and, BitVec.getLsbD_append]
  interval_cases i <;> simp

theorem ldB (x : Nib) : Statement (.ldB x) := by
  refine BitVec.eq_of_getLsbD_eq fun i hi => ?_
  simp only [encode, formatXKK, row, BitVec.getLsbD_and, BitVec.getLsbD_append]
  interval_cases i <;> simp

theorem ldIV (x : Nib) : Statement (.ldIV x) := by
  refine BitVec.eq_of_getLsbD_eq fun i hi => ?_
  simp only [encode, formatXKK, row, BitVec.getLsbD_and, BitVec.getLsbD_append]
  interval_cases i <;> simp

theorem ldVI (x : Nib) : Statement (.ldVI x) := by
  refine BitVec.eq_of_getLsbD_eq fun i hi => ?_
  simp only [encode, formatXKK, row, BitVec.getLsbD_and, BitVec.getLsbD_append]
  interval_cases i <;> simp

end Sys2Proof.Laws.TableRow
end

