-- ==== Sys2Proof/Tests/Slice0.lean ====
section
/-! SUPPORT. The model's own tests: expected results from the vectors of 95_test_vectors.md and the table of R87, or by
hand from the rules, and a witness for the hypotheses of each statement. -/

namespace Sys2Proof.Tests

open Sys2Proof.Machine Sys2Proof.Config

/-- A SOURCE machine about to run one word. -/
def source (hi lo : Byte) : State := State.construct defaultParams [hi, lo]

/-- A COMPLETE machine about to run one word, with these keys and this draw, and no tick. -/
def complete (hi lo : Byte) (keys : BitVec 16 := 0) (rnd : Byte := 0) : State :=
  { State.construct { defaultParams with profile := .complete } [hi, lo] with
    keys := keys, script := [⟨0, keys, rnd⟩] }

/-- The machine with another parameter. -/
def withParams (f : Params → Params) (s : State) : State := { s with params := f s.params }

/-- The machine with one pixel on. -/
def lit (r : Fin 32) (c : Fin 64) (s : State) : State := { s with fb := s.fb.toggle r c }

/-- Whether the next step answers a state of which p holds. -/
def after (s : State) (p : State → Bool) : Bool :=
  match step s with
  | .next t => p t
  | _ => false

/-- Whether the next step faults with that record. -/
def faults (s : State) (r : FaultRecord) : Bool := after s fun t => t.status == .faulted r

/-! Well-formedness. -/

theorem test_sys_of_cls_is_ill_formed : (Instr.sys 0x0E0).wellFormed = false := by decide
theorem test_sys_of_ret_is_ill_formed : (Instr.sys 0x0EE).wellFormed = false := by decide
theorem test_sys_is_well_formed : (Instr.sys 0x0E1).wellFormed = true := by decide

/-! Decoding: for every constructor a word written out from its row of R82. -/

theorem test_decode_cls : decodeWord 0x00E0 = .op .cls := by decide
theorem test_decode_ret : decodeWord 0x00EE = .op .ret := by decide
theorem test_decode_sys : decodeWord 0x00E1 = .op (.sys 0x0E1) := by decide
theorem test_decode_jp : decodeWord 0x10EE = .op (.jp 0x0EE) := by decide
theorem test_decode_call : decodeWord 0x2AAA = .op (.call 0xAAA) := by decide
theorem test_decode_seVB : decodeWord 0x3F00 = .op (.seVB 0xF 0x00) := by decide
theorem test_decode_sneVB : decodeWord 0x4A55 = .op (.sneVB 0xA 0x55) := by decide
theorem test_decode_seVV : decodeWord 0x5121 = .op (.seVV 1 2) := by decide
theorem test_decode_ldV : decodeWord 0x6A2F = .op (.ldV 0xA 0x2F) := by decide
theorem test_decode_addV : decodeWord 0x72F0 = .op (.addV 2 0xF0) := by decide
theorem test_decode_ldVV : decodeWord 0x8120 = .op (.ldVV 1 2) := by decide
theorem test_decode_or : decodeWord 0x8341 = .op (.or 3 4) := by decide
theorem test_decode_and : decodeWord 0x8342 = .op (.and 3 4) := by decide
theorem test_decode_xor : decodeWord 0x8343 = .op (.xor 3 4) := by decide
theorem test_decode_addVV : decodeWord 0x8F14 = .op (.addVV 0xF 1) := by decide
theorem test_decode_sub : decodeWord 0x8345 = .op (.sub 3 4) := by decide
theorem test_decode_shr : decodeWord 0x8346 = .op (.shr 3 4) := by decide
theorem test_decode_subn : decodeWord 0x8347 = .op (.subn 3 4) := by decide
theorem test_decode_shl : decodeWord 0x812E = .op (.shl 1 2) := by decide
theorem test_decode_sneVV : decodeWord 0x9AB7 = .op (.sneVV 0xA 0xB) := by decide
theorem test_decode_setI : decodeWord 0xA123 = .op (.setI 0x123) := by decide
theorem test_decode_jpV0 : decodeWord 0xB123 = .op (.jpV0 0x123) := by decide
theorem test_decode_rnd : decodeWord 0xC1FE = .op (.rnd 1 0xFE) := by decide
theorem test_decode_drw : decodeWord 0xD125 = .op (.drw 1 2 5) := by decide
theorem test_decode_skp : decodeWord 0xE19E = .op (.skp 1) := by decide
theorem test_decode_sknp : decodeWord 0xE0A1 = .op (.sknp 0) := by decide
theorem test_decode_ldVDT : decodeWord 0xF207 = .op (.ldVDT 2) := by decide
theorem test_decode_ldK : decodeWord 0xF20A = .op (.ldK 2) := by decide
theorem test_decode_ldDT : decodeWord 0xF215 = .op (.ldDT 2) := by decide
theorem test_decode_ldST : decodeWord 0xF218 = .op (.ldST 2) := by decide
theorem test_decode_addI : decodeWord 0xF21E = .op (.addI 2) := by decide
theorem test_decode_ldF : decodeWord 0xF029 = .op (.ldF 0) := by decide
theorem test_decode_ldB : decodeWord 0xF233 = .op (.ldB 2) := by decide
theorem test_decode_ldIV : decodeWord 0xF255 = .op (.ldIV 2) := by decide
theorem test_decode_ldVI : decodeWord 0xFF65 = .op (.ldVI 0xF) := by decide

/-- DEC-11, DEC-20, DEC-25. -/
theorem test_decode_unknown :
    decodeWord 0x8008 = .unknown 0x8008 ∧ decodeWord 0xE000 = .unknown 0xE000 ∧
      decodeWord 0xF01F = .unknown 0xF01F := by decide

/-- The bytes of a word, and the refusal of a single byte (R53, R70). -/
theorem test_decode_bytes :
    decodeBytes [0x6A, 0x2F, 0x12] = .read (.op (.ldV 0xA 0x2F)) [0x12] ∧ decodeBytes [0x6A] = .tooShort := by decide

/-- The table's numbering: bits 15..0 of one word. -/
theorem test_decode_table_word :
    decodeTableWord 16 0x6A2F = some (.ldV 0xA 0x2F) ∧ decodeTableWord 16 0xFFFF = none := by decide

theorem test_encode_bytes : encodeBytes (.drw 1 2 5) = [0xD1, 0x25] := by decide

/-! Control flow. -/

/-- MEM-8. -/
theorem test_empty_program_faults :
    faults (State.construct defaultParams []) ⟨.unimplementedOpcode, 0x200, some 0x0000, some .sys, .none⟩ = true := by
  decide

/-- MEM-3 and MEM-4. -/
theorem test_fetch_faults :
    faults { source 0 0 with pc := 0xFFF } ⟨.outOfBounds, 0xFFF, none, none, .address 0x1000⟩ = true ∧
      faults { source 0 0 with pc := 0x1000 } ⟨.outOfBounds, 0x1000, none, none, .address 0x1000⟩ = true := by decide

/-- MEM-5. -/
theorem test_odd_fetch :
    after { State.construct defaultParams [0, 0x12, 0x04] with pc := 0x201 } (·.pc == 0x204) = true := by decide

/-- FLT-4. -/
theorem test_sys :
    faults (complete 0x01 0x23) ⟨.unimplementedOpcode, 0x200, some 0x0123, some .sys, .none⟩ = true := by decide

/-- CF-6. -/
theorem test_ret :
    after { source 0x00 0xEE with sp := 1, stack := (source 0 0).stack.set 0 0x0206 }
      (fun t => t.pc == 0x206 && t.sp == 0) = true := by decide

/-- CF-7. -/
theorem test_ret_underflow :
    faults (source 0x00 0xEE) ⟨.stackUnderflow, 0x200, some 0x00EE, some .ret, .none⟩ = true := by decide

/-- L1-1. -/
theorem test_jp : after (source 0x1A 0xAA) (·.pc == 0x0AAA) = true := by decide

/-- CF-3. -/
theorem test_jp_odd : after (source 0x12 0x01) (·.pc == 0x0201) = true := by decide

/-- CF-5. -/
theorem test_call :
    after (source 0x23 0x00) (fun t => t.pc == 0x300 && t.sp == 1 && t.stack[0] == 0x0202) = true := by decide

/-- CF-8. -/
theorem test_call_overflow :
    faults { source 0x23 0x00 with sp := 255 } ⟨.stackOverflow, 0x200, some 0x2300, some .call, .none⟩ = true := by
  decide

/-- CF-14. -/
theorem test_jpV0 : after ((complete 0xBF 0xFF).setReg 0 0xFF) (·.pc == 0x10FE) = true := by decide

/-- CF-12. -/
theorem test_jpV0_source :
    faults ((source 0xB3 0x00).setReg 0 4) ⟨.unimplementedOpcode, 0x200, some 0xB300, some .jpV0, .none⟩ = true := by
  decide

/-- CF-16 and CF-17. -/
theorem test_seVB :
    after ((complete 0x33 0x10).setReg 3 0x10) (·.pc == 0x204) = true ∧
      after ((complete 0x33 0x11).setReg 3 0x10) (·.pc == 0x202) = true := by decide

/-- CF-18 and CF-19. -/
theorem test_sneVB :
    after ((complete 0x43 0x10).setReg 3 0x10) (·.pc == 0x202) = true ∧
      after ((complete 0x43 0x11).setReg 3 0x10) (·.pc == 0x204) = true := by decide

/-- CF-21 and CF-22. -/
theorem test_seVV :
    after (((complete 0x51 0x21).setReg 1 7).setReg 2 7) (·.pc == 0x204) = true ∧
      after (((complete 0x51 0x20).setReg 1 7).setReg 2 8) (·.pc == 0x202) = true := by decide

/-- CF-23 and CF-24. -/
theorem test_sneVV :
    after (complete 0x91 0x10) (·.pc == 0x202) = true ∧
      after (((complete 0x91 0x20).setReg 1 7).setReg 2 8) (·.pc == 0x204) = true := by decide

/-! Display. -/

/-- DRW-16. -/
theorem test_cls :
    after ((lit 5 5 (source 0x00 0xE0)).setReg 0xF 7)
      (fun t => !t.pixel 5 5 && t.reg 0xF == 7 && t.pc == 0x202) = true := by decide

/-- DRW-3, DRW-4 and DRW-12: a column past the edge continues on the next row, a row past the bottom wraps, a
collision. -/
theorem test_drw :
    after (({ source 0xD0 0x11 with i := 0x300 }.poke 0x300 0xFF).setReg 0 60)
      (fun t => t.pixel 0 60 && t.pixel 0 63 && t.pixel 1 0 && t.pixel 1 3 && !t.pixel 1 4 && !t.pixel 0 0 &&
        t.reg 0xF == 0) = true ∧
    after ((({ source 0xD0 0x11 with i := 0x300 }.poke 0x300 0xFF).setReg 0 63).setReg 1 31)
      (fun t => t.pixel 31 63 && t.pixel 0 0 && t.pixel 0 6 && !t.pixel 0 7) = true ∧
    after (lit 0 0 ({ source 0xD0 0x11 with i := 0x300 }.poke 0x300 0xC0))
      (fun t => !t.pixel 0 0 && t.pixel 0 1 && t.reg 0xF == 1 && t.pc == 0x202) = true := by decide

/-- DRW-5 and DRW-10: a target below the grid under FAULT, a row past memory. -/
theorem test_drw_faults :
    faults (withParams (fun p => { p with verticalOverflow := .fault })
        ((({ source 0xD0 0x11 with i := 0x300 }.poke 0x300 0xFF).setReg 0 63).setReg 1 31))
      ⟨.framebufferOutOfBounds, 0x200, some 0xD011, some .drw, .target 32 0⟩ = true ∧
    faults { source 0xD0 0x02 with i := 0xFFF }
      ⟨.outOfBounds, 0x200, some 0xD002, some .drw, .address 0x1000⟩ = true := by decide

/-! Loads and arithmetic. -/

/-- AR-1. -/
theorem test_ldV : after (source 0x6A 0x2F) (fun t => t.reg 0xA == 0x2F && t.pc == 0x202) = true := by decide

/-- AR-3. -/
theorem test_addV : after ((source 0x72 0x20).setReg 2 0xF0) (fun t => t.reg 2 == 0x10 && t.reg 0xF == 0) = true := by
  decide

/-- AR-8. -/
theorem test_setI : after (source 0xAF 0xFF) (·.i == 0x0FFF) = true := by decide

/-- AR-10. -/
theorem test_ldVV : after ((complete 0x81 0x20).setReg 2 0x33) (·.reg 1 == 0x33) = true := by decide

/-- AR-11. -/
theorem test_or :
    after ((((complete 0x81 0x21).setReg 1 0x0F).setReg 2 0xF0).setReg 0xF 5)
      (fun t => t.reg 1 == 0xFF && t.reg 0xF == 5) = true := by decide

/-- AR-12. -/
theorem test_and : after (((complete 0x81 0x22).setReg 1 0x3C).setReg 2 0x0F) (·.reg 1 == 0x0C) = true := by decide

/-- AR-13. -/
theorem test_xor : after (((complete 0x81 0x23).setReg 1 0x3C).setReg 2 0x0F) (·.reg 1 == 0x33) = true := by decide

/-- AR-15. -/
theorem test_addVV :
    after (((complete 0x81 0x24).setReg 1 0xF0).setReg 2 0x20) (fun t => t.reg 1 == 0x10 && t.reg 0xF == 1) = true := by
  decide

/-- AR-21: the flag is written last. -/
theorem test_addVV_flag_last :
    after (((complete 0x8F 0x14).setReg 0xF 0x10).setReg 1 0x20) (·.reg 0xF == 0) = true := by decide

/-- AR-24. -/
theorem test_sub :
    after (((complete 0x81 0x25).setReg 1 0x10).setReg 2 0x20) (fun t => t.reg 1 == 0xF0 && t.reg 0xF == 0) = true := by
  decide

/-- AR-26. -/
theorem test_sub_equal :
    after (((complete 0x81 0x25).setReg 1 0x20).setReg 2 0x20) (fun t => t.reg 1 == 0 && t.reg 0xF == 1) = true := by
  decide

/-- AR-29. -/
theorem test_shr :
    after (((complete 0x81 0x26).setReg 1 5).setReg 2 0x99) (fun t => t.reg 1 == 2 && t.reg 0xF == 1) = true := by decide

/-- AR-30. -/
theorem test_shr_vy :
    after ((withParams (fun p => { p with shiftSource := .vy }) (complete 0x81 0x26)).setReg 2 5)
      (fun t => t.reg 1 == 2 && t.reg 0xF == 1 && t.reg 2 == 5) = true := by decide

/-- AR-36. -/
theorem test_subn : after ((complete 0x81 0x27).setReg 1 1) (fun t => t.reg 1 == 0xFF && t.reg 0xF == 0) = true := by
  decide

/-- AR-38. -/
theorem test_shl : after ((complete 0x81 0x0E).setReg 1 0x81) (fun t => t.reg 1 == 2 && t.reg 0xF == 1) = true := by
  decide

/-- AR-43. -/
theorem test_rnd : after (complete 0xC1 0x0F (rnd := 0xA7)) (·.reg 1 == 0x07) = true := by decide

/-! Index and block memory. -/

/-- IX-2. -/
theorem test_addI : after ({ complete 0xF0 0x1E with i := 0xFFFF }.setReg 0 1) (·.i == 0) = true := by decide

/-- IX-6. -/
theorem test_ldF : after ((complete 0xF3 0x29).setReg 3 0x1A) (·.i == 0x0082) = true := by decide

/-- IX-9. -/
theorem test_ldB :
    after ({ complete 0xF1 0x33 with i := 0x300 }.setReg 1 0xFF)
      (fun t => t.byteAt 0x300 == 2 && t.byteAt 0x301 == 5 && t.byteAt 0x302 == 5 && t.i == 0x300) = true := by decide

/-- IX-12. -/
theorem test_ldB_past_memory :
    faults ({ complete 0xF1 0x33 with i := 0xFFE }.setReg 1 0xFF)
      ⟨.outOfBounds, 0x200, some 0xF133, some .ldB, .address 0x1000⟩ = true := by decide

/-- IX-13. -/
theorem test_ldIV :
    after (({ complete 0xF1 0x55 with i := 0x300 }.setReg 0 1).setReg 1 2)
      (fun t => t.byteAt 0x300 == 1 && t.byteAt 0x301 == 2 && t.byteAt 0x302 == 0 && t.i == 0x300) = true := by decide

/-- IX-14. -/
theorem test_ldIV_increments :
    after (withParams (fun p => { p with loadStoreIncrementsI := true }) { complete 0xF1 0x55 with i := 0x300 })
      (·.i == 0x302) = true := by decide

/-- IX-18. -/
theorem test_ldVI :
    after (({ complete 0xF1 0x65 with i := 0x300 }.poke 0x300 0x0A).poke 0x301 0x0B)
      (fun t => t.reg 0 == 0x0A && t.reg 1 == 0x0B && t.i == 0x300) = true := by decide

/-- IX-21. -/
theorem test_ldVI_past_memory :
    faults { complete 0xF0 0x65 with i := 0xFFFF }
      ⟨.outOfBounds, 0x200, some 0xF065, some .ldVI, .address 0xFFFF⟩ = true := by decide

/-! Timers and keys. -/

/-- TK-1. -/
theorem test_ldDT : after ((complete 0xF1 0x15).setReg 1 0x3C) (fun t => t.dt == 0x3C && t.pc == 0x202) = true := by decide

/-- TK-2. -/
theorem test_ldVDT : after { complete 0xF1 0x07 with dt := 0x3C } (·.reg 1 == 0x3C) = true := by decide

/-- TK-3: two ticks before a step. -/
theorem test_timer_tick :
    ({ source 0 0 with dt := 3, st := 1 }.timerTick.dt, { source 0 0 with dt := 3, st := 1 }.timerTick.st) = (2, 0) := by
  decide

/-- P6: two ticks before LD V1, DT with DT = 5 give 3. -/
theorem test_ticks_before_step :
    after { complete 0xF1 0x07 with dt := 5, script := [⟨2, 0, 0⟩] } (·.reg 1 == 3) = true := by decide

/-- TK-5. -/
theorem test_ldST : after ((complete 0xF1 0x18).setReg 1 5) (fun t => t.st == 5 && t.soundOn) = true := by decide

/-- TK-6. -/
theorem test_ldK_waits : after ((complete 0xF3 0x0A).setReg 3 0x77) (fun t => t.pc == 0x200 && t.reg 3 == 0x77) = true := by
  decide

/-- TK-7. -/
theorem test_ldK : after (complete 0xF3 0x0A (keys := 0x0024)) (fun t => t.reg 3 == 2 && t.pc == 0x202) = true := by decide

/-- TK-9 and TK-10. -/
theorem test_skp :
    after ((complete 0xE1 0x9E (keys := 0x0010)).setReg 1 4) (·.pc == 0x204) = true ∧
      after ((complete 0xE1 0x9E).setReg 1 4) (·.pc == 0x202) = true := by decide

/-- TK-13. -/
theorem test_skp_out_of_range :
    faults ((complete 0xE1 0x9E).setReg 1 0x10) ⟨.keyOutOfRange, 0x200, some 0xE19E, some .skp, .key 0x10⟩ = true := by
  decide

/-- TK-11 and TK-12. -/
theorem test_sknp :
    after ((complete 0xE1 0xA1).setReg 1 4) (·.pc == 0x204) = true ∧
      after ((complete 0xE1 0xA1 (keys := 0x0010)).setReg 1 4) (·.pc == 0x202) = true := by decide

/-- TK-14. -/
theorem test_sknp_out_of_range :
    faults ((complete 0xE1 0xA1).setReg 1 0xFF) ⟨.keyOutOfRange, 0x200, some 0xE1A1, some .sknp, .key 0xFF⟩ = true := by
  decide

/-! Faults, reset and the host's probe. -/

/-- FLT-1 and FLT-7. -/
theorem test_unknown :
    after ((source 0xFF 0xFF).setReg 3 9)
      (fun t => t.status == .faulted ⟨.unknownOpcode, 0x200, some 0xFFFF, none, .none⟩ && t.reg 3 == 9 &&
        t.pc == 0x200) = true := by decide

/-- FLT-5. -/
theorem test_faulted_halts :
    step { source 0x12 0x00 with status := .faulted ⟨.unknownOpcode, 0x200, some 0xFFFF, none, .none⟩ } =
      .fault .halted := rfl

/-- L1-7: the font's first byte, and the zero bytes beside the font. -/
theorem test_font :
    State.reset.byteAt 0x050 = 0xF0 ∧ State.reset.byteAt 0x09F = 0x80 ∧
      State.reset.byteAt 0x04F = 0 ∧ State.reset.byteAt 0x0A0 = 0 := by decide

theorem test_reset_memory_is_canonical : Memory.wf State.reset.background State.reset.mem := by decide

/-- A word placed at reset is what the first step runs. -/
theorem test_placed_word :
    after (State.reset.withFetchWord 16 0x1AAA) (·.pc == 0x0AAA) = true := by decide

/-! Witnesses: states and operands that meet the hypotheses of each statement, one for each clause. -/

theorem witness_DecodeOfEncode : (Instr.sys 0xFFF).wellFormed = true ∧ (Instr.drw 0xF 0 0xF).wellFormed = true := by decide

theorem witness_EncodeOfDecode :
    decodeWord 0x512F = .op (.seVV 1 2) ∧ decodeWord 0x0FFF = .op (.sys 0xFFF) := by decide

theorem witness_LiteralsBeforeFamilyZero :
    (0x00E1#16).extractLsb' 12 4 = 0x0#4 ∧ (0x00E1#16) ≠ 0x00E0 ∧ (0x00E1#16) ≠ 0x00EE := by decide

theorem witness_TopNibbleFamilies :
    (0x1FFF#16).extractLsb' 12 4 = 0x1#4 ∧ (0x2000#16).extractLsb' 12 4 = 0x2#4 ∧
    (0x3FFF#16).extractLsb' 12 4 = 0x3#4 ∧ (0x4000#16).extractLsb' 12 4 = 0x4#4 ∧
    (0x5FFF#16).extractLsb' 12 4 = 0x5#4 ∧ (0x6000#16).extractLsb' 12 4 = 0x6#4 ∧
    (0x7FFF#16).extractLsb' 12 4 = 0x7#4 ∧ (0x9000#16).extractLsb' 12 4 = 0x9#4 ∧
    (0xAFFF#16).extractLsb' 12 4 = 0xA#4 ∧ (0xB000#16).extractLsb' 12 4 = 0xB#4 ∧
    (0xCFFF#16).extractLsb' 12 4 = 0xC#4 ∧ (0xD000#16).extractLsb' 12 4 = 0xD#4 := by decide

theorem witness_SubdecodedFamilies :
    ((0x812E#16).extractLsb' 12 4 = 0x8#4 ∧ (0x812E#16).extractLsb' 0 4 = 0xE#4) ∧
    ((0xE19E#16).extractLsb' 12 4 = 0xE#4 ∧ (0xE19E#16).extractLsb' 0 8 = 0x9E#8) ∧
    ((0xF1FF#16).extractLsb' 12 4 = 0xF#4 ∧ (0xF1FF#16).extractLsb' 0 8 = 0xFF#8) := by decide

theorem witness_UnknownWords : decodeWord 0x800F = .unknown 0x800F ∧ decodeWord 0xE09F = .unknown 0xE09F := by decide

theorem witness_StepRunsDecodedInstruction :
    let s : State := { source 0x6A 0x2F with pc := 0x200 }
    let u : State := complete 0x81 0x24
    (s.status = .running ∧ s.pc.toNat + 1 < 4096 ∧ s.params.profile = .source ∧
      decodeWord (s.byteAt s.pc.toNat ++ s.byteAt (s.pc.toNat + 1)) = .op (.ldV 0xA 0x2F)) ∧
    (u.status = .running ∧ u.pc.toNat + 1 < 4096 ∧ u.params.profile = .complete ∧
      decodeWord (u.byteAt u.pc.toNat ++ u.byteAt (u.pc.toNat + 1)) = .op (.addVV 1 2)) := by decide

theorem witness_HostMovesUnderComplete :
    let s : State := complete 0x81 0x24
    (s.params.profile = .complete ∧ s.script = ⟨0, 0, 0⟩ :: []) ∧
      { s with script := [] }.params.profile = .complete ∧ { s with script := [] }.script = [] := by decide

theorem witness_FetchIsBoundsChecked :
    4096 ≤ { source 0 0 with pc := 0x1000 }.pc.toNat ∧
    ({ source 0 0 with pc := 0xFFF }.pc.toNat < 4096 ∧ 4096 ≤ { source 0 0 with pc := 0xFFF }.pc.toNat + 1) ∧
    { source 0 0 with pc := 0xFFE }.pc.toNat + 1 < 4096 := by decide

theorem witness_FetchFaultIsTaken :
    { source 0 0 with pc := 0xFFF }.status = .running ∧ 4096 ≤ { source 0 0 with pc := 0xFFF }.pc.toNat + 1 := by decide

theorem witness_UnknownWordFaults :
    (source 0x81 0x28).status = .running ∧ (source 0x81 0x28).fetch = .ok 0x8128 ∧
      decodeWord 0x8128 = .unknown 0x8128 := by decide

theorem witness_FaultedMachineHalts :
    { source 0 0 with status := .faulted ⟨.unknownOpcode, 0x200, some 0xFFFF, none, .none⟩ }.status =
      .faulted ⟨.unknownOpcode, 0x200, some 0xFFFF, none, .none⟩ := by decide

theorem witness_UnimplementedForms :
    executed (source 0x81 0x24).params.profile (tagOf (.addVV 1 2)) = false ∧
      executed (complete 0x01 0x23).params.profile (tagOf (.sys 0x123)) = false := by decide

theorem witness_FaultsArePrecise :
    (source 0x01 0x23).status = .running ∧ ∃ t, exec (.sys 0x123) (source 0x01 0x23) = .next t ∧
      t.status = .faulted ⟨.unimplementedOpcode, 0x200, some 0x0123, some .sys, .none⟩ :=
  ⟨by decide, _, rfl, by decide⟩

theorem witness_EarlyFaultsChangeNothingElse :
    (source 0x00 0xEE).status = .running ∧ ∃ t, exec .ret (source 0x00 0xEE) = .next t ∧
      t.status = .faulted ⟨.stackUnderflow, 0x200, some 0x00EE, some .ret, .none⟩ ∧
      FaultKind.stackUnderflow ∈ [FaultKind.unimplementedOpcode, .stackOverflow, .stackUnderflow, .keyOutOfRange] :=
  ⟨by decide, _, rfl, by decide, by decide⟩

/-- The ends of the ranges, for an empty program, one of one byte and one of 3585 bytes. -/
theorem witness_ConstructedState :
    (79 < 80 ∧ 254 < 255) ∧ (3583 < (List.replicate 3585 (0x12 : Byte)).length ∧ 3583 < 3584) ∧
      (0 < ([0x12] : List Byte).length) ∧ (0x04F < 4096 ∧ 0x04F < 0x050) ∧ (0x1FF < 0x200 ∧ 0x0A0 ≤ 0x1FF) ∧
      (0xFFF < 4096 ∧ 0x0A0 ≤ 0xFFF ∧ 0x200 + ([0x12] : List Byte).length ≤ 0xFFF) := by
  rw [List.length_replicate]
  decide

theorem witness_DataAccessesAreBoundsChecked : 4096 ≤ 4096 ∧ 4095 < 4096 := by decide

theorem witness_FetchSeesStores :
    (∃ t, (source 0 0).memWrite 0x200 0x12 = .ok t ∧ t.pc.toNat = 0x200 ∧ 0x200 + 1 < 4096) ∧
      ∃ t, { source 0 0 with pc := 0xFFE }.memWrite 0xFFF 0x12 = .ok t ∧ t.pc.toNat + 1 = 0xFFF :=
  ⟨⟨_, rfl, by decide, by decide⟩, _, rfl, by decide⟩

theorem witness_RetPops :
    0 < { source 0 0 with sp := 1 }.sp.toNat ∧ 0 < { source 0 0 with sp := 255 }.sp.toNat ∧ (source 0 0).sp = 0 := by
  decide

theorem witness_CallPushes :
    (source 0 0).sp.toNat < 255 ∧ { source 0 0 with sp := 254 }.sp.toNat < 255 ∧
      { source 0 0 with sp := 255 }.sp.toNat = 255 ∧ 254 < 255 := by decide

theorem witness_CallThenRet : { source 0 0 with sp := 254 }.sp.toNat < 255 := by decide

theorem witness_SysAlwaysFaults : (0x0E1#12) ≠ 0x0E0 ∧ (0x0E1#12) ≠ 0x0EE := by decide

/-- Both profiles, for every statement whose clauses ask for one: JpV0Jumps, SkipsMovePc, CopyAndLogic, AddVVCarries,
SubtractionsSetNotBorrow, RndMasksTheDraw, IndexArithmetic, TimerLoads, SoundFollowsTimer. -/
theorem witness_profiles :
    (complete 0 0).params.profile = .complete ∧ (source 0 0).params.profile = .source := by decide

theorem witness_JpV0Jumps : (complete 0xBF 0xFF).params.profile = .complete ∧ (source 0xBF 0xFF).params.profile = .source :=
  witness_profiles

theorem witness_AddVVCarries :
    (complete 0 0).params.profile = .complete ∧ (0xE#4) ≠ vf ∧ (source 0 0).params.profile = .source := by decide

theorem witness_SubtractionsSetNotBorrow :
    (complete 0 0).params.profile = .complete ∧ (0x0#4) ≠ vf ∧ (source 0 0).params.profile = .source := by decide

theorem witness_ShiftsMoveOneBit :
    let s : State := (complete 0x81 0x26).setReg 1 5
    let u : State := (withParams (fun p => { p with shiftSource := .vy }) (complete 0x81 0x26)).setReg 2 5
    ((s.params.shiftSource = .vx → (5 : Byte) = s.reg 1) ∧ (s.params.shiftSource = .vy → (5 : Byte) = s.reg 2)) ∧
    ((u.params.shiftSource = .vx → (5 : Byte) = u.reg 1) ∧ (u.params.shiftSource = .vy → (5 : Byte) = u.reg 2)) ∧
      s.params.profile = .complete ∧ (1#4) ≠ vf ∧
      { s with params := defaultParams }.params.profile = .source := by decide

/-- The last sprite byte at 0xFFF under WRAP, and a sprite inside the grid under FAULT. -/
theorem witness_DrwIsXorOfTheSprite :
    let s : State := { source 0xD0 0x1F with i := 0xFF1 }
    let u : State := withParams (fun p => { p with verticalOverflow := .fault }) s
    (∀ k < (0xF#4).toNat, s.i.toNat + k < 4096) ∧ s.params.verticalOverflow = .wrap ∧
      ((∀ k < (0xF#4).toNat, u.i.toNat + k < 4096) ∧ ∀ k < (0xF#4).toNat, u.rowInGrid 0 1 k) := by
  simp only [State.rowInGrid]
  decide

/-- Row 0 readable at 0xFFF and row 1 not, and under FAULT a start row 31 whose row 1 leaves the grid. -/
theorem witness_DrwFaults :
    let s : State := { source 0xD0 0x12 with i := 0xFFF }
    let u : State := withParams (fun p => { p with verticalOverflow := .fault })
      ({ source 0xD0 0x12 with i := 0x300 }.setReg 1 31)
    (1 < (2#4).toNat ∧ (∀ j < 1, s.i.toNat + j < 4096 ∧ s.params.verticalOverflow = .wrap) ∧
      4096 ≤ s.i.toNat + 1) ∧
    (1 < (2#4).toNat ∧ (∀ j < 1, u.i.toNat + j < 4096 ∧ u.rowInGrid 0 1 j) ∧
      u.i.toNat + 1 < 4096 ∧ u.params.verticalOverflow = .fault ∧ ¬ u.rowInGrid 0 1 1) := by
  simp only [State.rowInGrid]
  decide

theorem witness_DrwTwiceRestores :
    let s : State := { source 0xD0 0x15 with i := 0x50 }
    (0#4) ≠ vf ∧ (1#4) ≠ vf ∧ (∀ k < (5#4).toNat, s.i.toNat + k < 4096) ∧ s.params.verticalOverflow = .wrap ∧
      (∀ r c, s.pixel r c = false) := by
  refine ⟨by decide, by decide, by decide, by decide, fun r c => ?_⟩
  show State.reset.pixel r c = false
  simp [State.pixel, Framebuffer.get, State.reset]

theorem witness_BcdStoresDigits :
    ({ complete 0xF1 0x33 with i := 0xFFD }.params.profile = .complete ∧
      { complete 0xF1 0x33 with i := 0xFFD }.i.toNat + 3 ≤ 4096) ∧
    ({ complete 0xF1 0x33 with i := 0xFFE }.params.profile = .complete ∧
      4096 < { complete 0xF1 0x33 with i := 0xFFE }.i.toNat + 3) ∧ (source 0xF1 0x33).params.profile = .source := by decide

theorem witness_BlockStore :
    ({ complete 0xFF 0x55 with i := 0xFF0 }.params.profile = .complete ∧
      { complete 0xFF 0x55 with i := 0xFF0 }.i.toNat + (0xF#4).toNat < 4096) ∧
    ({ complete 0xFF 0x55 with i := 0xFF1 }.params.profile = .complete ∧
      4096 ≤ { complete 0xFF 0x55 with i := 0xFF1 }.i.toNat + (0xF#4).toNat) ∧
    (source 0xFF 0x55).params.profile = .source := by decide

theorem witness_BlockLoad :
    ({ complete 0xF0 0x65 with i := 0xFFF }.params.profile = .complete ∧
      { complete 0xF0 0x65 with i := 0xFFF }.i.toNat + (0#4).toNat < 4096) ∧
    ({ complete 0xF0 0x65 with i := 0x1000 }.params.profile = .complete ∧
      4096 ≤ { complete 0xF0 0x65 with i := 0x1000 }.i.toNat + (0#4).toNat) ∧
    (source 0xF0 0x65).params.profile = .source := by decide

theorem witness_KeyWait :
    ((complete 0xF3 0x0A).params.profile = .complete ∧ (complete 0xF3 0x0A).keys = 0) ∧
    ((complete 0xF3 0x0A (keys := 0x8000)).params.profile = .complete ∧ (complete 0xF3 0x0A (keys := 0x8000)).keys ≠ 0) ∧
    (source 0xF3 0x0A).params.profile = .source := by decide

theorem witness_KeySkips :
    (((complete 0xE1 0x9E).setReg 1 15).params.profile = .complete ∧ (((complete 0xE1 0x9E).setReg 1 15).reg 1).toNat ≤ 15) ∧
    (((complete 0xE1 0x9E).setReg 1 16).params.profile = .complete ∧ 15 < (((complete 0xE1 0x9E).setReg 1 16).reg 1).toNat) ∧
    (source 0xE1 0x9E).params.profile = .source := by decide

/-- A state that meets the invariant and has a next step, for StepKeepsInvariant and StepKeepsParameters. -/
theorem witness_StepKeepsInvariant : State.reset.Inv ∧ ∃ t, step State.reset = .next t := by
  refine ⟨⟨Memory.nil_wf, fun _ => ⟨rfl, rfl⟩, fun _ => by decide, fun _ k h hk => ?_, fun _ _ => by decide⟩, _, rfl⟩
  exact absurd hk (Nat.not_lt_zero k)

theorem witness_StepKeepsParameters : ∃ t, step State.reset = .next t := ⟨_, rfl⟩

theorem witness_OnlyBlockStoresWriteMemory :
    let s : State := { complete 0xF1 0x33 with i := 0x300 }.setReg 1 200
    s.status = .running ∧ ∃ t, exec (.ldB 1) s = .next t ∧ t.status = .running ∧ t.byteAt 0x300 ≠ s.byteAt 0x300 :=
  ⟨by decide, _, rfl, by decide, by decide⟩

theorem witness_OnlyClsAndDrwWriteDisplay :
    let s : State := lit 3 3 (source 0x00 0xE0)
    s.status = .running ∧ ∃ t, exec .cls s = .next t ∧ t.status = .running ∧ t.pixel 3 3 ≠ s.pixel 3 3 :=
  ⟨by decide, _, rfl, by decide, by decide⟩

theorem witness_OnlyCallAndRetTouchStack :
    let s : State := source 0x23 0x00
    s.status = .running ∧ ∃ t, exec (.call 0x300) s = .next t ∧ t.status = .running ∧
      (t.sp ≠ s.sp ∨ t.stack ≠ s.stack) :=
  ⟨by decide, _, rfl, by decide, .inl (by decide)⟩

theorem witness_SourceIgnoresHostInputs :
    (source 0x12 0x00).params.profile = .source ∧ ∃ t, step (source 0x12 0x00) = .next t ∧ t.status = .running :=
  ⟨by decide, _, rfl, by decide⟩

/-- MEM-7. -/
theorem witness_NormalEndRepeats : (State.construct defaultParams [0x12]).normalEndAt 0x200 :=
  ⟨by decide, by decide, by decide⟩

theorem witness_PlacedWordRuns :
    State.reset.status = .running ∧ State.reset.pc.toNat + 1 < 4096 ∧
      decodeTableWord 16 0xD125 = some (.drw 1 2 5) := by decide

end Sys2Proof.Tests
end

section
/-! PROOFS. The parameters of R8: construction takes them as its argument, and no step changes them. -/

namespace Sys2Proof.Machine

variable {i : Instr} {c : Cause} {s t : State}

/-- With no byte to load, construction gives the reset state under the parameters it was handed (R250). -/
theorem State.construct_nil (p : Config.Params) : State.construct p [] = { State.reset with params := p } := rfl

/-- The parameters are not among the fields R110 leaves open. -/
theorem raiseUnspecified_params (h : raiseUnspecified i c s = .next t) : t.params = s.params := by
  rw [← Host.Outcome.next.inj h]
  -- The field is read off first, so that unification does not compare the open memory with that of `s`.
  dsimp only
  exact State.params_faulted ..

/-- Of the effects an instruction can have, only the late fault does not write out its next state; none of the others
writes the parameters. -/
theorem Effect.params_eq (h : Effect i s t) : t.params = s.params := by
  cases h with
  | late c _ _ hlate => exact raiseUnspecified_params hlate
  | _ => rfl

theorem exec_params (h : exec i s = .next t) : t.params = s.params := (exec_effect h).params_eq

/-- Settles O53, by what a step can do: both faults of the cycle change the status alone, and an instruction keeps the
parameters of the state the host left, which are those of the state before. -/
theorem stepKeepsParameters : Obligations.StepKeepsParameters := by
  intro s t h
  obtain ⟨_, ⟨c, _, rfl⟩ | ⟨w, u, _, _, rfl⟩ | ⟨w, i, _, _, hexec⟩⟩ := step_cases h
  · rw [State.params_faulted, State.hostMoves_params]
  · rw [State.params_faulted, State.hostMoves_params]
  · rw [exec_params hexec, State.hostMoves_params]

/-- Settles O19: construction with no program replaces the parameters of the reset state, which are the defaults
already. -/
theorem resetIsConstruction : Obligations.ResetIsConstruction :=
  ⟨(State.construct_nil defaultParams).symm, rfl, rfl, rfl, rfl⟩

end Sys2Proof.Machine
end

section
/-! PROOFS. The state: what construction leaves in every field and byte, that every step keeps the invariant, and which
instructions write the framebuffer and the call stack. -/

namespace Sys2Proof.Machine

variable {i : Instr} {c : Cause} {s t : State} {w : Word}

/-! The invariant after one update of the state. -/

/-- A faulted machine owes the invariant its memory and its timers alone. -/
theorem State.Inv.of_faulted {r : FaultRecord} (hr : s.status = .faulted r)
    (memory : Memory.wf s.background s.mem)
    (sourceTimers : s.params.profile = .source → s.dt = 0 ∧ s.st = 0) : s.Inv := by
  have not_running (h : s.status = .running) : False := by simp [hr] at h
  exact ⟨memory, sourceTimers, fun h => (not_running h).elim, fun h => (not_running h).elim,
    fun h => (not_running h).elim⟩

theorem State.Inv.faulted (hs : s.Inv) (word : Option Word) (op : Option Tag) (c : Cause) :
    (s.faulted word op c).Inv :=
  .of_faulted rfl hs.memory hs.sourceTimers

/-- The invariant does not read V or the framebuffer, and of pc it asks the bound while the machine runs. -/
theorem State.Inv.withRegsFbPc (hs : s.Inv) (v : Vector Byte 16) (f : Framebuffer)
    (hw : s.status = .running → w.toNat ≤ 0x10FE) : State.Inv { s with v := v, fb := f, pc := w } :=
  ⟨hs.memory, hs.sourceTimers, hw, hs.stackBound, hs.sourceIndex⟩

theorem State.Inv.setI (hs : s.Inv) (hw : s.params.profile = .source → w.toNat ≤ 0x0FFF) : (s.setI w).Inv :=
  ⟨hs.memory, hs.sourceTimers, hs.pcBound, hs.stackBound, fun _ => hw⟩

theorem State.Inv.withMem {m : List Host.Cell} (hs : s.Inv) (hm : Memory.wf s.background m) :
    State.Inv { s with mem := m } :=
  ⟨hm, hs.sourceTimers, hs.pcBound, hs.stackBound, hs.sourceIndex⟩

theorem State.Inv.withTimers (hs : s.Inv) (d u : Byte) (hp : s.params.profile = .complete) :
    State.Inv { s with dt := d, st := u } :=
  ⟨hs.memory, fun hsource => by simp [hp] at hsource, hs.pcBound, hs.stackBound, hs.sourceIndex⟩

/-- Push keeps the invariant when the pushed value is in the bound of a stack entry. -/
theorem State.Inv.push (hs : s.Inv) (h : s.push w = .ok t) (hw : w.toNat ≤ 0x1000) : t.Inv := by
  obtain ⟨hsp, rfl⟩ := State.push_eq_ok.1 h
  refine ⟨hs.memory, hs.sourceTimers, hs.pcBound, fun hrun k hk hlt => ?_, hs.sourceIndex⟩
  have hsucc : (s.sp + 1).toNat = s.sp.toNat + 1 := BitVec.toNat_add_of_lt (by simpa using by omega)
  dsimp only at hlt ⊢
  rw [hsucc] at hlt
  rw [Vector.getElem_set]
  split
  · exact hw
  · exact hs.stackBound hrun k hk (by omega)

theorem toNat_sub_one_of_ne_zero {b : Byte} (h : b ≠ 0) : (b - 1).toNat = b.toNat - 1 := by
  have := (BitVec.toNat_ne_iff_ne).2 h
  bv_omega

/-- Pop keeps the invariant: the entries in use after it were in use before. -/
theorem State.Inv.pop (hs : s.Inv) (h : s.pop = .ok (w, t)) : t.Inv := by
  obtain ⟨hsp, heq⟩ := State.pop_eq_ok.1 h
  obtain ⟨rfl, rfl⟩ := Prod.mk.inj heq
  refine ⟨hs.memory, hs.sourceTimers, hs.pcBound, fun hrun k hk hlt => hs.stackBound hrun k hk ?_, hs.sourceIndex⟩
  rw [toNat_sub_one_of_ne_zero hsp] at hlt
  omega

/-- The popped value is an entry in use. -/
theorem State.Inv.popped_le (hs : s.Inv) (h : s.pop = .ok (w, t)) (hrun : s.status = .running) :
    w.toNat ≤ 0x1000 := by
  obtain ⟨hsp, heq⟩ := State.pop_eq_ok.1 h
  obtain ⟨rfl, rfl⟩ := Prod.mk.inj heq
  have hpos : s.sp.toNat ≠ 0 := BitVec.toNat_ne_iff_ne.2 hsp
  exact hs.stackBound hrun _ _ (by omega)

theorem State.Inv.hostMoves (hs : s.Inv) : s.hostMoves.Inv := by
  cases hp : s.params.profile with
  | source => rwa [State.hostMoves_source hp]
  | complete =>
    rw [State.hostMoves_complete hp]
    obtain ⟨hmem, htimers, hpc, hstack, hi⟩ := hs.withTimers
      (tickedTimer s.nextInput.ticks s.dt) (tickedTimer s.nextInput.ticks s.st) hp
    exact ⟨hmem, htimers, hpc, hstack, hi⟩

theorem State.Inv.load {a : Nat} (hs : s.Inv) (program : List Byte) : (s.load a program).Inv := by
  have hwf := State.load_wf (a := a) program hs.memory
  obtain ⟨m, hm⟩ := State.load_mem_only (s := s) (a := a) program
  rw [hm] at hwf ⊢
  exact hs.withMem hwf

/-! The fault after a possible write. -/

theorem raiseUnspecified_status (h : raiseUnspecified i c s = .next t) :
    t.status = .faulted ⟨c.kind, s.pc, s.fetchedWord, some (tagOf i), c.info⟩ := by
  rw [← Host.Outcome.next.inj h, State.status_faulted]

/-- R110 leaves memory open, but in the canonical form, and does not list the timers. -/
theorem State.Inv.of_raiseUnspecified (hs : s.Inv) (h : raiseUnspecified i c s = .next t) : t.Inv := by
  refine .of_faulted (raiseUnspecified_status h) ?_ ?_
  · rw [State.background, raiseUnspecified_params h, ← Host.Outcome.next.inj h]
    -- The field is read off first, as in `raiseUnspecified_params`.
    dsimp only
    exact Memory.ofBytes_wf
  · rw [raiseUnspecified_params h, ← Host.Outcome.next.inj h]
    exact hs.sourceTimers

/-! Where pc can go: a fetched instruction stands at 0xFFE or below. -/

theorem toNat_pc_add_two_le (hpc : s.pc.toNat + 1 < memSize) : (s.pc + 2).toNat ≤ 0x1000 := by
  simp only [memSize] at hpc
  bv_omega

theorem toNat_pc_skipIf_le (hpc : s.pc.toNat + 1 < memSize) (b : Bool) : (s.skipIf b).pc.toNat ≤ 0x10FE := by
  simp only [memSize] at hpc
  cases b with
  | false =>
    rw [State.pc_skipIf, if_neg Bool.false_ne_true]
    bv_omega
  | true =>
    rw [State.pc_skipIf, if_pos rfl]
    bv_omega

theorem toNat_zext16_le (nnn : Addr) : (zext16 nnn).toNat ≤ 0x0FFF := by
  unfold zext16
  bv_omega

theorem toNat_offsetTarget_le (nnn : Addr) (b : Byte) : (offsetTarget nnn b).toNat ≤ 0x10FE := by
  unfold offsetTarget
  bv_omega

/-! The invariant through instructions and steps. -/

/-- Every effect of a fetched instruction keeps the invariant. -/
theorem Effect.inv (h : Effect i s t) (hs : s.Inv) (hpc : s.pc.toNat + 1 < memSize) : t.Inv := by
  have hnext := toNat_pc_add_two_le hpc
  have hadvance : s.status = .running → (s.pc + 2).toNat ≤ 0x10FE := fun _ => hnext.trans (by decide)
  cases h with
  | early c => exact hs.faulted _ _ c
  | late c _ _ hlate => exact hs.of_raiseUnspecified hlate
  | registers v => exact hs.withRegsFbPc v s.fb hadvance
  | wait => exact hs
  | index v w hp => exact (hs.setI (w := w) fun hsource => by simp [hp] at hsource).withRegsFbPc v s.fb hadvance
  | setIndex nnn => exact (hs.setI fun _ => toNat_zext16_le nnn).withRegsFbPc s.v s.fb hadvance
  | skip b => exact hs.withRegsFbPc s.v s.fb fun _ => toNat_pc_skipIf_le hpc b
  | jump nnn => exact hs.withRegsFbPc s.v s.fb fun _ => (toNat_zext16_le nnn).trans (by decide)
  | jumpOffset nnn b => exact hs.withRegsFbPc s.v s.fb fun _ => toNat_offsetTarget_le nnn b
  | call nnn hsp _ =>
    exact (hs.push (State.push_eq_ok.2 ⟨hsp, rfl⟩) hnext).withRegsFbPc s.v s.fb
      fun _ => (toNat_zext16_le nnn).trans (by decide)
  | ret hsp _ =>
    have hpop := State.pop_eq_ok.2 ⟨hsp, rfl⟩
    exact (hs.pop hpop).withRegsFbPc s.v s.fb fun hrun => (hs.popped_le hpop hrun).trans (by decide)
  | display f v _ => exact hs.withRegsFbPc v f hadvance
  | timers d u hp => exact (hs.withTimers d u hp).withRegsFbPc s.v s.fb hadvance
  | memory m w hp _ hwf =>
    have hmem := hs.withMem (hwf hs.memory)
    exact (hmem.setI (w := w) fun hsource => by simp [hp] at hsource).withRegsFbPc s.v s.fb hadvance

/-- Settles O52, by what a step can do: the host's moves keep the invariant, both faults of the cycle keep it, and an
instruction that was fetched stands low enough for every effect to keep it. -/
theorem stepKeepsInvariant : Obligations.StepKeepsInvariant := by
  intro s t hs h
  have hmoved := hs.hostMoves
  obtain ⟨_, ⟨c, _, rfl⟩ | ⟨w, u, _, _, rfl⟩ | ⟨w, i, hfetch, _, hexec⟩⟩ := step_cases h
  · exact hmoved.faulted none none c
  · exact hmoved.faulted (some u) none _
  · refine (exec_effect hexec).inv hmoved ?_
    rw [State.hostMoves_pc]
    exact (State.fetch_eq_ok.1 hfetch).1

/-! Construction. -/

theorem Memory.resetByte_font (font : Vector Byte 80) (k : Nat) (h : k < 80) :
    Memory.resetByte font (0x050 + k) = font[k] := by
  have hin : fontBase ≤ 0x050 + k ∧ 0x050 + k < fontBase + fontLen := by simp [h]
  simp [Memory.resetByte, hin]

theorem Memory.resetByte_outside_font (font : Vector Byte 80) {a : Nat} (h : a < 0x050 ∨ 0x0A0 ≤ a) :
    Memory.resetByte font a = 0 :=
  dif_neg (by simp only [fontBase, fontLen]; omega)

/-- Construction leaves every field but memory and the parameters as at reset. -/
theorem State.construct_eq_reset (p : Config.Params) (program : List Byte) :
    ∃ m, State.construct p program = { State.reset with params := p, mem := m } :=
  State.load_mem_only program

/-- A byte after construction: the program's inside the loaded range and MEM, else the reset contents' (R36, R60). -/
theorem State.byteAt_construct (p : Config.Params) (program : List Byte) (a : Nat) :
    (State.construct p program).byteAt a =
      if h : 0x200 ≤ a ∧ a < 0x200 + program.length ∧ a < 4096 then program[a - 0x200]'(by omega)
      else Memory.resetByte p.font a :=
  State.byteAt_load program a

@[simp] theorem State.reg_reset (x : Nib) : State.reset.reg x = 0 := Vector.getElem_replicate ..

@[simp] theorem State.stack_reset (k : Nat) (h : k < 255) : State.reset.stack[k] = 0 := Vector.getElem_replicate ..

@[simp] theorem State.pixel_reset (r : Fin 32) (c : Fin 64) : State.reset.pixel r c = false :=
  Framebuffer.get_cleared r c

/-- With nothing loaded the machine meets the invariant under any parameters. -/
theorem State.inv_reset_with (p : Config.Params) : State.Inv { State.reset with params := p } where
  memory := Memory.nil_wf
  sourceTimers _ := ⟨rfl, rfl⟩
  pcBound _ := (by decide : State.reset.pc.toNat ≤ 0x10FE)
  stackBound _ k _ hk := absurd hk (Nat.not_lt_zero k)
  sourceIndex _ _ := (by decide : State.reset.i.toNat ≤ 0x0FFF)

/-- Settles O50: the loader keeps the invariant of the state with nothing loaded. -/
theorem constructionMeetsInvariant : Obligations.ConstructionMeetsInvariant :=
  fun p program => (State.inv_reset_with p).load program

/-- Settles O51: reset is a construction. -/
theorem resetMeetsInvariant : Obligations.ResetMeetsInvariant :=
  constructionMeetsInvariant defaultParams []

/-- Settles O18: the fields are those of the reset state, which the loader leaves alone, and the bytes are told by the
loaded range and the font range. -/
theorem constructedState : Obligations.ConstructedState := by
  rintro p program s rfl
  have hbyte := State.byteAt_construct p program
  obtain ⟨m, hm⟩ := State.construct_eq_reset p program
  rw [hm] at hbyte ⊢
  refine ⟨State.reg_reset, rfl, rfl, rfl, State.stack_reset, State.pixel_reset, rfl, fun _ => ⟨rfl, rfl⟩, rfl,
    fun k h => ?_, fun k h hk => ?_, fun a ha hfont hprog => ?_⟩
  · rw [hbyte, dif_neg (by omega)]
    exact Memory.resetByte_font p.font k h
  · rw [hbyte, dif_pos (by omega)]
    simp
  · rw [hbyte, dif_neg (by omega)]
    exact Memory.resetByte_outside_font p.font (by omega)

/-! What an instruction that ends without a fault writes. -/

/-- A running next state has neither shape of a fault, and of the other effects one alone writes the framebuffer. -/
theorem Effect.fb_eq (h : Effect i s t) (hrun : t.status = .running) :
    (i = .cls ∨ ∃ x y n, i = .drw x y n) ∨ t.fb = s.fb := by
  cases h with
  | early c => cases hrun
  | late c _ _ hlate => simp [raiseUnspecified_status hlate] at hrun
  | display f v hi => exact .inl hi
  | _ => exact .inr rfl

/-- As for the framebuffer: of the effects that end in a running state, two write the stack. -/
theorem Effect.sameStack (h : Effect i s t) (hrun : t.status = .running) :
    ((∃ nnn, i = .call nnn) ∨ i = .ret) ∨ SameStack s t := by
  cases h with
  | early c => cases hrun
  | late c _ _ hlate => simp [raiseUnspecified_status hlate] at hrun
  | call nnn _ hi => exact .inl (.inl ⟨nnn, hi⟩)
  | ret _ hi => exact .inl (.inr hi)
  | _ => exact .inr ⟨rfl, rfl⟩

/-- Settles O55: no other effect writes the framebuffer, of which a pixel is read. -/
theorem onlyClsAndDrwWriteDisplay : Obligations.OnlyClsAndDrwWriteDisplay := by
  intro i s t r c _ hexec hrun hpixel
  refine ((exec_effect hexec).fb_eq hrun).resolve_right fun hfb => hpixel ?_
  rw [State.pixel, State.pixel, hfb]

/-- Settles O56: no other effect writes SP or the call stack. -/
theorem onlyCallAndRetTouchStack : Obligations.OnlyCallAndRetTouchStack := by
  intro i s t _ hexec hrun hchanged
  refine ((exec_effect hexec).sameStack hrun).resolve_right fun ⟨hsp, hstack⟩ => ?_
  exact hchanged.elim (· hsp) (· hstack)

end Sys2Proof.Machine
end

section
/-! PROOFS. Memory: what data accesses, fetch and the loader do to it, what a step fetches and runs, and which
instructions write it. -/

namespace Sys2Proof.Machine

variable {i : Instr} {s t : State} {w : Word} {a : Nat} {b : Byte}

/-! Data accesses. -/

/-- A write changes no byte but the one at its address. -/
theorem State.sameMemoryOutside_poke (s : State) (a : Nat) (b : Byte) : SameMemoryOutside s (s.poke a b) a 1 :=
  fun _ hx => State.byteAt_poke_ne s (by omega)

/-- Settles O22: outside memory both accesses answer the error, and inside a write is the unchecked one, which leaves
every field but memory alone. -/
theorem dataAccessesAreBoundsChecked : Obligations.DataAccessesAreBoundsChecked := by
  refine fun s a r b => ⟨rfl, fun hout => ?_, fun hin => ⟨?_, s.poke a b, ?_, State.byteAt_poke_same s, ?_⟩⟩
  · exact ⟨State.memRead_eq_error.2 ⟨hout, rfl⟩, State.memWrite_eq_error.2 ⟨hout, rfl⟩⟩
  · exact State.memRead_eq_ok.2 ⟨hin, rfl⟩
  · exact State.memWrite_eq_ok.2 ⟨hin, rfl⟩
  · exact ⟨s.sameMemoryOutside_poke a b, State.reg_poke s a b, rfl, rfl, ⟨rfl, rfl⟩, fun _ _ => rfl, ⟨rfl, rfl⟩,
      rfl, rfl, rfl, rfl, rfl, rfl⟩

/-! Fetch. -/

/-- Settles O10: the offending address is the larger of 4096 and pc. -/
theorem fetchIsBoundsChecked : Obligations.FetchIsBoundsChecked := by
  refine fun s => ⟨fun hout => ?_, fun hin hout => ?_, fun hin => ?_⟩
  · exact State.fetch_eq_error.2 ⟨Nat.le_succ_of_le hout, congrArg outOfBoundsAt (Nat.max_eq_right hout).symm⟩
  · have hlast : s.pc.toNat + 1 = memSize := Nat.le_antisymm hin hout
    exact State.fetch_eq_error.2 ⟨hout, congrArg outOfBoundsAt (hlast.trans (Nat.max_eq_left hin.le).symm)⟩
  · exact State.fetch_eq_ok.2 ⟨hin, rfl⟩

/-- Settles O23: of the two bytes of the word, the one at the written address reads as written and the other as
before. -/
theorem fetchSeesStores : Obligations.FetchSeesStores := by
  intro s t a b hwrite
  obtain ⟨ha, rfl⟩ := State.memWrite_eq_ok.1 hwrite
  refine ⟨fun hpc hnext => ?_, fun hpc => ?_⟩
  · refine State.fetch_eq_ok.2 ⟨by rwa [hpc], ?_⟩
    rw [hpc, State.byteAt_poke_same, State.byteAt_poke_ne s (by omega)]
    rfl
  · refine State.fetch_eq_ok.2 ⟨by rwa [hpc], ?_⟩
    rw [hpc, State.byteAt_poke_same, State.byteAt_poke_ne s (by omega)]
    rfl

/-! What a step runs. -/

/-- A Running machine whose fetched word decodes to a form executes it from the state the host left (R100). -/
theorem step_op (hrun : s.status = .running) (hfetch : s.fetch = .ok w) (hdecode : decodeWord w = .op i) :
    step s = exec i s.hostMoves := by
  rw [step_running hrun]
  exact runCycle_op (State.hostMoves_fetch.trans hfetch) hdecode

/-- Settles O8, by the laws of the cycle and of the host's moves. -/
theorem stepRunsDecodedInstruction : Obligations.StepRunsDecodedInstruction :=
  fun s _ hrun hpc hdecode =>
    ⟨step_op hrun (State.fetch_eq_ok.2 ⟨hpc, rfl⟩) hdecode, State.hostMoves_source,
      fun hcomplete => ⟨s.nextInput, State.hostMoves_complete hcomplete⟩⟩

/-! The loader. -/

/-- Loading past the end of memory loads nothing, so the bytes of a program that would lie there may be dropped. -/
theorem State.load_take (program : List Byte) {n : Nat} (h : memSize ≤ a + n) :
    s.load a (program.take n) = s.load a program := by
  induction program generalizing s a n with
  | nil => rw [List.take_nil]
  | cons b bs ih =>
    cases n with
    | zero => simp only [List.take_zero, State.load, if_pos (show memSize ≤ a from h)]
    | succ n => rw [List.take_succ_cons, State.load, State.load, ih (by omega)]

@[simp] theorem State.pc_load (program : List Byte) : (s.load a program).pc = s.pc := by
  obtain ⟨m, hm⟩ := State.load_mem_only (s := s) (a := a) program
  rw [hm]

@[simp] theorem State.status_load (program : List Byte) : (s.load a program).status = s.status := by
  obtain ⟨m, hm⟩ := State.load_mem_only (s := s) (a := a) program
  rw [hm]

/-- The loader changes no byte outside the range it is given. -/
theorem State.sameMemoryOutside_load (s : State) (a : Nat) (program : List Byte) :
    SameMemoryOutside s (s.load a program) a program.length :=
  fun _ hx => by rw [State.byteAt_load, dif_neg (by omega)]

/-- Settles O20: 3584 bytes from 0x200 on reach the end of memory, and the loader does not touch the status. -/
theorem longProgramsAreTruncated : Obligations.LongProgramsAreTruncated :=
  fun _ program => ⟨(State.load_take program (by decide)).symm, State.status_load program⟩

/-! A word placed at pc. -/

/-- Two bytes loaded at pc are the word fetched next. -/
theorem State.fetch_load_pc (hpc : s.pc.toNat + 1 < memSize) (hi lo : Byte) :
    (s.load s.pc.toNat [hi, lo]).fetch = .ok (wordOfBytes hi lo) := by
  refine State.fetch_eq_ok.2 ⟨by rwa [State.pc_load], ?_⟩
  rw [State.pc_load, State.byteAt_load, State.byteAt_load, dif_pos ⟨le_rfl, by simp, by omega⟩,
    dif_pos ⟨Nat.le_succ _, by simp, hpc⟩]
  simp

/-- A table word decodes to an instruction exactly when the word of its two bytes does. -/
theorem decodeTableWord_eq_some {nbits n : Nat} :
    decodeTableWord nbits n = some i ↔
      ∃ hi lo, tableBytes nbits n = [hi, lo] ∧ decodeWord (wordOfBytes hi lo) = .op i := by
  simp only [decodeTableWord, tableBytes, decodeBytes]
  split <;> simp_all

/-- Settles O59: the placed bytes are loaded at pc, where the step fetches them. -/
theorem placedWordRuns : Obligations.PlacedWordRuns := by
  intro s w i hrun hpc hdecode
  obtain ⟨hi, lo, hbytes, hop⟩ := decodeTableWord_eq_some.1 hdecode
  have hplaced : s.withFetchWord 16 w = s.load s.pc.toNat [hi, lo] := congrArg (s.load s.pc.toNat) hbytes
  rw [hplaced]
  refine ⟨step_op ?_ (State.fetch_load_pc hpc hi lo) hop, s.sameMemoryOutside_load s.pc.toNat [hi, lo], ?_⟩
  · rwa [State.status_load]
  · exact State.pc_load [hi, lo]

/-! Which instructions write memory. -/

/-- As for the framebuffer and the stack: of the effects that end in a running state, the block stores alone write
memory. -/
theorem Effect.sameMemory (h : Effect i s t) (hrun : t.status = .running) :
    (s.params.profile = .complete ∧ ((∃ x, i = .ldB x) ∨ ∃ x, i = .ldIV x)) ∨ SameMemory s t := by
  cases h with
  | early c => cases hrun
  | late c _ _ hlate => simp [raiseUnspecified_status hlate] at hrun
  | memory m w hcomplete hi _ => exact .inl ⟨hcomplete, hi⟩
  | _ => exact .inr fun _ => rfl

/-- Settles O54: no other effect writes memory. -/
theorem onlyBlockStoresWriteMemory : Obligations.OnlyBlockStoresWriteMemory := by
  intro i s t a _ hexec hrun hchanged
  exact ((exec_effect hexec).sameMemory hrun).resolve_right fun hsame => hchanged (hsame a)

end Sys2Proof.Machine
end

section
/-! PROOFS. The encoding: a word rebuilt from the fields the decoder read, the decoder family by family, the words it
leaves UNKNOWN, and the two round trips with the encoder. -/

namespace Sys2Proof

variable {f n : Nib} {kk : Byte} {nnn : Addr} {i : Instr} {w u : Word}

/-! A word rebuilt from the fields the decoder read. -/

theorem Field.formatNNN_eq (hf : Field.f w = f) : formatNNN f (Field.nnn w) = w := by
  rw [← hf, ← Field.eq_formatNNN]

theorem Field.formatXKK_eq (hf : Field.f w = f) (hkk : Field.kk w = kk) : formatXKK f (Field.x w) kk = w := by
  rw [← hf, ← hkk, ← Field.eq_formatXKK]

theorem Field.formatXYN_eq (hf : Field.f w = f) (hn : Field.n w = n) :
    formatXYN f (Field.x w) (Field.y w) n = w := by
  rw [← hf, ← hn, ← Field.eq_formatXYN]

/-- With the low nibble written 0 the word loses the bits that families 5 and 9 ignore (R81, R85). -/
theorem Field.formatXYN_zero_eq (hf : Field.f w = f) :
    formatXYN f (Field.x w) (Field.y w) 0x0#4 = w &&& 0xFFF0#16 := by
  subst hf
  unfold Field.f Field.x Field.y formatXYN
  refine BitVec.eq_of_getLsbD_eq fun i hi => ?_
  simp only [BitVec.getLsbD_append, BitVec.getLsbD_extractLsb', BitVec.getLsbD_and]
  interval_cases i <;> simp

/-! The decoder, family by family. -/

/-- A word that is neither literal is decoded by its family (R75). -/
theorem decodeWord_of_ne (hcls : w ≠ 0x00E0#16) (hret : w ≠ 0x00EE#16) : decodeWord w = decodeFamily w := by
  rw [decodeWord, if_neg hcls, if_neg hret]

/-- Family 8 as the table of R78. -/
theorem decodeFamily8_eq (w : Word) :
    decodeFamily8 w =
      let x := Field.x w; let y := Field.y w; let n := Field.n w
      if n = 0x0#4 then .op (.ldVV x y) else if n = 0x1#4 then .op (.or x y)
      else if n = 0x2#4 then .op (.and x y) else if n = 0x3#4 then .op (.xor x y)
      else if n = 0x4#4 then .op (.addVV x y) else if n = 0x5#4 then .op (.sub x y)
      else if n = 0x6#4 then .op (.shr x y) else if n = 0x7#4 then .op (.subn x y)
      else if n = 0xE#4 then .op (.shl x y) else .unknown w := by
  unfold decodeFamily8
  split <;> simp_all

/-- Family E as the table of R79. -/
theorem decodeFamilyE_eq (w : Word) :
    decodeFamilyE w =
      let x := Field.x w; let kk := Field.kk w
      if kk = 0x9E#8 then .op (.skp x) else if kk = 0xA1#8 then .op (.sknp x) else .unknown w := by
  unfold decodeFamilyE
  split <;> simp_all

/-- Family F as the table of R80. -/
theorem decodeFamilyF_eq (w : Word) :
    decodeFamilyF w =
      let x := Field.x w; let kk := Field.kk w
      if kk = 0x07#8 then .op (.ldVDT x) else if kk = 0x0A#8 then .op (.ldK x)
      else if kk = 0x15#8 then .op (.ldDT x) else if kk = 0x18#8 then .op (.ldST x)
      else if kk = 0x1E#8 then .op (.addI x) else if kk = 0x29#8 then .op (.ldF x)
      else if kk = 0x33#8 then .op (.ldB x) else if kk = 0x55#8 then .op (.ldIV x)
      else if kk = 0x65#8 then .op (.ldVI x) else .unknown w := by
  unfold decodeFamilyF
  split <;> simp_all

/-- A family nibble that no earlier arm of the dispatch matches is F. -/
theorem eq_F_of_notMem {f : Nib} (h : f ∉ [0x0#4, 0x1#4, 0x2#4, 0x3#4, 0x4#4, 0x5#4, 0x6#4, 0x7#4, 0x8#4, 0x9#4,
    0xA#4, 0xB#4, 0xC#4, 0xD#4, 0xE#4]) : f = 0xF#4 := by
  revert f
  decide

/-- Settles O5: the family is not 0, so it alone picks the arm of the dispatch. -/
theorem topNibbleFamilies : Obligations.TopNibbleFamilies := by
  rintro w _ x y n kk nnn rfl rfl rfl rfl rfl rfl
  and_intros
  all_goals
    intro (hf : Field.f w = _)
    rw [decodeWord_of_family (by simp [hf]), decodeFamily, hf]
    rfl

/-- Settles O6: each of the three families has its arm, and its table is the chain of tests. -/
theorem subdecodedFamilies : Obligations.SubdecodedFamilies := by
  rintro w _ x y n kk rfl rfl rfl rfl rfl
  and_intros
  all_goals
    intro (hf : Field.f w = _)
    rw [decodeWord_of_family (by simp [hf]), decodeFamily, hf]
  · exact decodeFamily8_eq w
  · exact decodeFamilyE_eq w
  · exact decodeFamilyF_eq w

/-- Settles O1: the decoder evaluates every row to its result. -/
theorem decodeExamples : Obligations.DecodeExamples := by
  unfold Obligations.DecodeExamples
  decide

/-! Decoding the encoding. -/

theorem formatNNN_inj {a : Addr} : formatNNN f nnn = formatNNN f a ↔ nnn = a :=
  ⟨fun h => by simpa using congrArg Field.nnn h, congrArg (formatNNN f)⟩

/-- The only check of well-formedness: the word of SYS is not one of the whole-word literals (R75, R76). -/
theorem wellFormed_sys_iff : (Instr.sys nnn).wellFormed = true ↔
    formatNNN 0x0#4 nnn ≠ 0x00E0#16 ∧ formatNNN 0x0#4 nnn ≠ 0x00EE#16 := by
  have hcls : formatNNN 0x0#4 nnn = 0x00E0#16 ↔ nnn = 0x0E0#12 := formatNNN_inj (a := 0x0E0#12)
  have hret : formatNNN 0x0#4 nnn = 0x00EE#16 ↔ nnn = 0x0EE#12 := formatNNN_inj (a := 0x0EE#12)
  simp [Instr.wellFormed, hcls, hret]

/-- Settles O2, form by form: the fields of a word put together are the parts, so the family and the function value of
the encoded word lead the decoder back to the form and its operands. SYS falls through to family 0 because it is
well-formed. -/
theorem decodeOfEncode : Obligations.DecodeOfEncode := by
  intro i hi
  cases i with
  | cls => rfl
  | ret => rfl
  | sys nnn =>
    obtain ⟨hcls, hret⟩ := wellFormed_sys_iff.1 hi
    simp [encode, decodeWord_of_ne hcls hret, decodeFamily]
  | _ =>
    rw [decodeWord_of_family (by simp [encode])]
    simp [encode, decodeFamily, decodeFamily8_eq, decodeFamilyE_eq, decodeFamilyF_eq]

/-! Encoding what was decoded. -/

/-- What decoding a word to an instruction says about the two (R74, R81, R85). -/
def Instr.IsReadingOf (i : Instr) (w : Word) : Prop :=
  i.wellFormed = true ∧ encode i = w &&& i.inspectedBits

/-- A form all of whose bits are inspected has no word but its encoding. -/
theorem Instr.isReadingOf_iff (hi : i.wellFormed = true) (hbits : i.inspectedBits = 0xFFFF#16) :
    i.IsReadingOf w ↔ encode i = w := by
  have hall : w &&& 0xFFFF#16 = w := BitVec.and_allOnes
  rw [Instr.IsReadingOf, hbits, hall, and_iff_right hi]

theorem isReadingOf_of_decodeFamily8 (hf : Field.f w = 0x8#4) (h : decodeFamily8 w = .op i) : i.IsReadingOf w := by
  unfold decodeFamily8 at h
  split at h <;> cases h
  all_goals exact (Instr.isReadingOf_iff rfl rfl).2 (Field.formatXYN_eq hf ‹_›)

theorem isReadingOf_of_decodeFamilyE (hf : Field.f w = 0xE#4) (h : decodeFamilyE w = .op i) : i.IsReadingOf w := by
  unfold decodeFamilyE at h
  split at h <;> cases h
  all_goals exact (Instr.isReadingOf_iff rfl rfl).2 (Field.formatXKK_eq hf ‹_›)

theorem isReadingOf_of_decodeFamilyF (hf : Field.f w = 0xF#4) (h : decodeFamilyF w = .op i) : i.IsReadingOf w := by
  unfold decodeFamilyF at h
  split at h <;> cases h
  all_goals exact (Instr.isReadingOf_iff rfl rfl).2 (Field.formatXKK_eq hf ‹_›)

theorem isReadingOf_of_decodeFamily (hcls : w ≠ 0x00E0#16) (hret : w ≠ 0x00EE#16) (h : decodeFamily w = .op i) :
    i.IsReadingOf w := by
  unfold decodeFamily at h
  split at h
  -- SYS, which the two hypotheses make well-formed.
  case h_1 hf =>
    cases h
    have hw := Field.formatNNN_eq hf
    refine (Instr.isReadingOf_iff (wellFormed_sys_iff.2 ?_) rfl).2 hw
    rw [hw]
    exact ⟨hcls, hret⟩
  -- Families 1, 2, A and B, in format NNN.
  case h_2 hf | h_3 hf | h_11 hf | h_12 hf =>
    cases h
    exact (Instr.isReadingOf_iff rfl rfl).2 (Field.formatNNN_eq hf)
  -- Families 3, 4, 6, 7 and C, in format XKK.
  case h_4 hf | h_5 hf | h_7 hf | h_8 hf | h_13 hf =>
    cases h
    exact (Instr.isReadingOf_iff rfl rfl).2 (Field.formatXKK_eq hf rfl)
  -- Families 5 and 9, whose low nibble is lost.
  case h_6 hf | h_10 hf =>
    cases h
    exact ⟨rfl, Field.formatXYN_zero_eq hf⟩
  -- Family D, in format XYN.
  case h_14 hf =>
    cases h
    exact (Instr.isReadingOf_iff rfl rfl).2 (Field.formatXYN_eq hf rfl)
  -- The families with a function value, F being what is left.
  case h_9 hf => exact isReadingOf_of_decodeFamily8 hf h
  case h_15 hf => exact isReadingOf_of_decodeFamilyE hf h
  case h_16 => exact isReadingOf_of_decodeFamilyF (eq_F_of_notMem (by simp_all)) h

/-- Settles O3, along the branches of the decoder: each arm read the fields its form writes back. -/
theorem encodeOfDecode : Obligations.EncodeOfDecode := by
  intro w i h
  unfold decodeWord at h
  split_ifs at h with hcls hret
  · cases h
    exact (Instr.isReadingOf_iff rfl rfl).2 hcls.symm
  · cases h
    exact (Instr.isReadingOf_iff rfl rfl).2 hret.symm
  · exact isReadingOf_of_decodeFamily hcls hret h

/-- Both round trips at once: a form all of whose bits are inspected is decoded from its own word alone. -/
theorem decodeWord_eq_op_iff (hi : i.wellFormed = true) (hbits : i.inspectedBits = 0xFFFF#16) :
    decodeWord w = .op i ↔ w = encode i := by
  refine ⟨fun h => ((Instr.isReadingOf_iff hi hbits).1 (encodeOfDecode w i h)).symm, ?_⟩
  rintro rfl
  exact decodeOfEncode i hi

/-- Settles O4: the literals are forms without operands, whose words the two round trips single out. -/
theorem literalsBeforeFamilyZero : Obligations.LiteralsBeforeFamilyZero := by
  intro w
  refine ⟨decodeWord_eq_op_iff rfl rfl, decodeWord_eq_op_iff rfl rfl, ?_, fun p => by cases p <;> rfl⟩
  intro (hf : Field.f w = 0x0#4) hcls hret
  rw [decodeWord_of_ne hcls hret, decodeFamily, hf]
  rfl

/-! UNKNOWN words. -/

/-- In a chain of tests an instruction is not UNKNOWN. -/
theorem ite_op_eq_unknown_iff {c : Prop} [Decidable c] {o : Operation} :
    (if c then .op i else o) = .unknown u ↔ ¬c ∧ o = .unknown u := by
  split <;> simp [*]

theorem decodeFamily8_eq_unknown_iff : decodeFamily8 w = .unknown u ↔
    Field.n w ∈ [0x8#4, 0x9#4, 0xA#4, 0xB#4, 0xC#4, 0xD#4, 0xF#4] ∧ w = u := by
  have hassigned : ∀ n : Nib, n ∈ [0x8#4, 0x9#4, 0xA#4, 0xB#4, 0xC#4, 0xD#4, 0xF#4] ↔
      n ∉ [0x0#4, 0x1#4, 0x2#4, 0x3#4, 0x4#4, 0x5#4, 0x6#4, 0x7#4, 0xE#4] := by decide
  rw [decodeFamily8_eq, hassigned]
  simp [ite_op_eq_unknown_iff, and_assoc]

theorem decodeFamilyE_eq_unknown_iff : decodeFamilyE w = .unknown u ↔
    Field.kk w ∉ [0x9E#8, 0xA1#8] ∧ w = u := by
  simp [decodeFamilyE_eq, ite_op_eq_unknown_iff, and_assoc]

theorem decodeFamilyF_eq_unknown_iff : decodeFamilyF w = .unknown u ↔
    Field.kk w ∉ [0x07#8, 0x0A#8, 0x15#8, 0x18#8, 0x1E#8, 0x29#8, 0x33#8, 0x55#8, 0x65#8] ∧ w = u := by
  simp [decodeFamilyF_eq, ite_op_eq_unknown_iff, and_assoc]

theorem decodeFamily_eq_unknown_iff : decodeFamily w = .unknown u ↔
    (Field.f w = 0x8#4 ∧ decodeFamily8 w = .unknown u) ∨ (Field.f w = 0xE#4 ∧ decodeFamilyE w = .unknown u) ∨
      (Field.f w = 0xF#4 ∧ decodeFamilyF w = .unknown u) := by
  unfold decodeFamily
  split
  case h_16 =>
    have hf : Field.f w = 0xF#4 := eq_F_of_notMem (by simp_all)
    simp [hf]
  all_goals simp [*]

/-- The literals lie in family 0, which has no UNKNOWN word, so the dispatch on the family decides. -/
theorem decodeWord_eq_unknown_iff_decodeFamily : decodeWord w = .unknown u ↔ decodeFamily w = .unknown u := by
  unfold decodeWord
  split_ifs with hcls hret
  · subst hcls
    simp [decodeFamily, Field.f]
  · subst hret
    simp [decodeFamily, Field.f]
  · rfl

/-- The words of families 8, E and F with an unassigned function value (R83). -/
def HasUnassignedFunction (w : Word) : Prop :=
  (Field.f w = 0x8#4 ∧ Field.n w ∈ [0x8#4, 0x9#4, 0xA#4, 0xB#4, 0xC#4, 0xD#4, 0xF#4]) ∨
    (Field.f w = 0xE#4 ∧ Field.kk w ∉ [0x9E#8, 0xA1#8]) ∨
    (Field.f w = 0xF#4 ∧ Field.kk w ∉ [0x07#8, 0x0A#8, 0x15#8, 0x18#8, 0x1E#8, 0x29#8, 0x33#8, 0x55#8, 0x65#8])

theorem decodeWord_eq_unknown_iff : decodeWord w = .unknown u ↔ HasUnassignedFunction w ∧ w = u := by
  rw [decodeWord_eq_unknown_iff_decodeFamily, decodeFamily_eq_unknown_iff, decodeFamily8_eq_unknown_iff,
    decodeFamilyE_eq_unknown_iff, decodeFamilyF_eq_unknown_iff, HasUnassignedFunction]
  simp only [← and_assoc, ← or_and_right]

/-- Settles O7, which says of `decodeWord_eq_unknown_iff` first the carried word and then the set. -/
theorem unknownWords : Obligations.UnknownWords :=
  fun w => ⟨fun _ h => (decodeWord_eq_unknown_iff.1 h).2.symm,
    fun ⟨_, h⟩ => (decodeWord_eq_unknown_iff.1 h).1, fun h => ⟨w, decodeWord_eq_unknown_iff.2 ⟨h, rfl⟩⟩⟩

end Sys2Proof
end

section
/-! PROOFS. The execution cycle: what an UNKNOWN word and a form the profile does not execute do, that every instruction
answers, what a fault before any write leaves, and that a Faulted machine has no step. -/

namespace Sys2Proof.Machine

variable {i : Instr} {s t : State} {w u : Word} {body : Result} {r : FaultRecord}

/-! UNKNOWN words. -/

/-- A cycle that reads an UNKNOWN word takes the fault of R107. -/
theorem runCycle_unknown (hfetch : s.fetch = .ok w) (hdecode : decodeWord w = .unknown u) :
    runCycle s = .next (s.faulted (some u) none ⟨.unknownOpcode, .none⟩) := by
  simp [runCycle, hfetch, hdecode]

/-- Settles O12: UNKNOWN carries the fetched word, and the host's moves do not touch pc. -/
theorem unknownWordFaults : Obligations.UnknownWordFaults := by
  intro s w u hrun hfetch hdecode
  obtain rfl : w = u := (decodeWord_eq_unknown_iff.1 hdecode).2
  rw [step_running hrun, runCycle_unknown (State.hostMoves_fetch.trans hfetch) hdecode,
    ← State.hostMoves_pc (s := s)]
  rfl

/-! Every instruction answers. -/

/-- The test of the profile answers a next state when the meaning behind it does: the other branch takes a fault. -/
theorem exists_next_whenExecuted (h : ∃ t, body = .next t) : ∃ t, whenExecuted i s body = .next t := by
  unfold whenExecuted
  split
  · exact h
  · exact ⟨_, rfl⟩

/-- Settles O14, form by form: SYS takes its fault, a meaning that can fault or wait answers on both of its branches,
and the other meanings are a next state behind the test of the profile. -/
theorem execAlwaysAnswers : Obligations.ExecAlwaysAnswers := by
  intro i s
  cases i with
  | sys nnn => exact ⟨_, rfl⟩
  | ret | call | drw | skp | sknp | ldK | ldB | ldIV | ldVI =>
    apply exists_next_whenExecuted
    split <;> exact ⟨_, rfl⟩
  | _ => exact exists_next_whenExecuted ⟨_, rfl⟩

/-! Forms the profile does not execute. -/

/-- Every meaning but that of SYS, which is this fault, stands behind the test of the profile (R106, R108). -/
theorem exec_of_not_executed (h : executed s.params.profile (tagOf i) = false) :
    exec i s = raise i ⟨.unimplementedOpcode, .none⟩ s := by
  cases i with
  | sys nnn => rfl
  | _ => exact whenExecuted_of_not_executed h

theorem executed_source_iff (x : Tag) :
    executed .source x = true ↔ x ∈ [Tag.cls, .ret, .jp, .call, .drw, .ldV, .addV, .setI] := by
  cases x <;> decide

theorem executed_complete_eq_false_iff (x : Tag) : executed .complete x = false ↔ x = .sys := by
  simp [executed]

/-- Settles O15: the fault of the test of the profile, and the forms each profile executes. -/
theorem unimplementedForms : Obligations.UnimplementedForms :=
  fun i _ => ⟨exec_of_not_executed, executed_source_iff (tagOf i), executed_complete_eq_false_iff (tagOf i)⟩

/-! Faults before any write. -/

/-- Of the effects that end in a fault, the early one writes the status alone, and the late one is raised by an access
or a target out of range alone. -/
theorem Effect.fault_cases (h : Effect i s t) (hrun : s.status = .running) (hfault : t.status = .faulted r) :
    t = { s with status := .faulted r } ∨ r.kind = .outOfBounds ∨ r.kind = .framebufferOutOfBounds := by
  have not_faulted (hs : s.status = .faulted r) : False := by simp [hrun] at hs
  cases h with
  | early c =>
    cases hfault
    exact .inl rfl
  | late c _ hkind hlate =>
    cases (raiseUnspecified_status hlate).symm.trans hfault
    exact .inr hkind
  | _ => exact (not_faulted hfault).elim

/-- Settles O17: the kinds it names are none of the late fault's. -/
theorem earlyFaultsChangeNothingElse : Obligations.EarlyFaultsChangeNothingElse := by
  intro i s t r hrun hexec hfault hkind
  refine ((exec_effect hexec).fault_cases hrun hfault).resolve_right ?_
  rintro (hlate | hlate) <;> simp [hlate] at hkind

/-! Faulted machines. -/

/-- Settles O13: both a step and a normal end ask for a Running machine, which construction gives, since the loader does
not touch the status of the reset state. -/
theorem faultedMachineHalts : Obligations.FaultedMachineHalts := by
  refine ⟨fun s r hfault => ⟨step_faulted hfault, fun a ⟨hrun, _, _⟩ => ?_⟩,
    fun p program => State.status_load program⟩
  simp [hfault] at hrun

end Sys2Proof.Machine
end

section
/-! PROOFS. Control flow: what SYS, RET, JP, CALL, JP V0 and the skips do to pc and the call stack, and what they leave
as it was. -/

namespace Sys2Proof.Machine

variable {i : Instr} {s : State} {body : Result} {b : Byte} {nnn : Addr}

/-! The test of the profile, profile by profile. -/

/-- A form COMPLETE executes has its meaning (R106). -/
theorem whenExecuted_complete (hp : s.params.profile = .complete) (hi : executed .complete (tagOf i) = true) :
    whenExecuted i s body = body :=
  whenExecuted_of_executed (by rw [hp]; exact hi)

/-- A form SOURCE does not execute takes the fault of the test of the profile (R108). -/
theorem takesUnimplemented_source (hp : s.params.profile = .source) (hi : executed .source (tagOf i) = false) :
    TakesUnimplemented i s :=
  exec_of_not_executed (by rw [hp]; exact hi)

/-! What a write of pc and of the call stack leaves as it was. -/

theorem sameButPc_jump (s : State) (w : Word) : SameButPc s (s.jump w) :=
  ⟨State.reg_jump s w, rfl, State.byteAt_jump s w, ⟨rfl, rfl⟩, fun _ _ => rfl, ⟨rfl, rfl⟩, rfl, rfl, rfl, rfl, rfl, rfl⟩

theorem sameButPc_skipIf (s : State) (c : Bool) : SameButPc s (s.skipIf c) :=
  sameButPc_jump s (s.pc + if c then 4 else 2)

/-- The frame CALL and RET share. -/
theorem same_of_pc_stack_write {t : State} {w : Word} {entries : Vector Word 255} {p : Byte}
    (ht : t = { s with pc := w, stack := entries, sp := p }) :
    SameRegs s t ∧ t.i = s.i ∧ SameMemory s t ∧ SameDisplay s t ∧ SameTimers s t ∧ SameRest s t := by
  subst ht
  exact ⟨fun _ => rfl, rfl, fun _ => rfl, fun _ _ => rfl, ⟨rfl, rfl⟩, rfl, rfl, rfl, rfl, rfl, rfl⟩

/-! The targets. -/

theorem toNat_zext16 (nnn : Addr) : (zext16 nnn).toNat = nnn.toNat := by
  unfold zext16
  bv_omega

/-- The sum is at most 0x10FE, so it does not wrap (R125). -/
theorem toNat_offsetTarget (nnn : Addr) (b : Byte) : (offsetTarget nnn b).toNat = nnn.toNat + b.toNat := by
  unfold offsetTarget
  bv_omega

theorem toNat_add_one_of_lt (h : b.toNat < 255) : (b + 1).toNat = b.toNat + 1 := by
  bv_omega

/-! The meanings, branch by branch. -/

theorem exec_jp (nnn : Addr) (s : State) : exec (.jp nnn) s = .next (s.jump (zext16 nnn)) :=
  whenExecuted_of_executed (executed_of_source rfl)

theorem exec_call (h : s.sp.toNat < 255) :
    exec (.call nnn) s = .next { s with
      pc := zext16 nnn, stack := s.stack.set s.sp.toNat (s.pc + 2) h, sp := s.sp + 1 } := by
  have hpush := (State.push_eq_ok (w := s.pc + 2)).2 ⟨h, rfl⟩
  rw [exec, execCall, whenExecuted_of_executed (executed_of_source rfl), hpush]
  rfl

theorem exec_call_of_full (h : s.sp = 255) :
    exec (.call nnn) s = raise (.call nnn) ⟨.stackOverflow, .none⟩ s := by
  have hpush := (State.push_eq_error (w := s.pc + 2)).2 ⟨h, rfl⟩
  rw [exec, execCall, whenExecuted_of_executed (executed_of_source rfl), hpush]

theorem exec_ret (h : s.sp ≠ 0) :
    exec .ret s = .next { s with
      pc := s.stack[s.sp.toNat - 1]'(by have := s.sp.isLt; omega), sp := s.sp - 1 } := by
  have hpop := State.pop_eq_ok.2 ⟨h, rfl⟩
  rw [exec, execRet, whenExecuted_of_executed (executed_of_source rfl), hpop]
  rfl

theorem exec_ret_of_empty (h : s.sp = 0) : exec .ret s = raise .ret ⟨.stackUnderflow, .none⟩ s := by
  have hpop := State.pop_eq_error.2 ⟨h, rfl⟩
  rw [exec, execRet, whenExecuted_of_executed (executed_of_source rfl), hpop]

/-! Calls and returns. -/

/-- Settles O27: Push writes one entry and SP, or finds the stack full, where the fault changes the status alone. -/
theorem callPushes : Obligations.CallPushes := by
  refine fun nnn s => ⟨decodeOfEncode (.call nnn) rfl, fun hsp => ?_, fun hsp => ?_⟩
  · refine ⟨_, exec_call hsp, toNat_zext16 nnn, toNat_add_one_of_lt hsp, fun k h => ?_,
      same_of_pc_stack_write rfl⟩
    simp only [Vector.getElem_set, eq_comm (a := k)]
  · exact exec_call_of_full (BitVec.eq_of_toNat_eq hsp)

/-- Settles O28: SP after the CALL is not 0, so RET pops, and the entry below SP is the one CALL wrote. -/
theorem callThenRet : Obligations.CallThenRet := by
  intro nnn s hsp
  have hsucc := toNat_add_one_of_lt hsp
  have hne : s.sp + 1 ≠ 0 := BitVec.toNat_ne_iff_ne.1 (hsucc.trans_ne (Nat.succ_ne_zero _))
  refine ⟨_, _, exec_call hsp, exec_ret hne, ?_, hsucc, toNat_zext16 nnn, ?_, BitVec.add_sub_cancel s.sp 1⟩
  · exact Vector.getElem?_set_self hsp
  · simp only [hsucc, Nat.add_sub_cancel, Vector.getElem_set_self]

/-- Settles O25: Pop reads the entry below SP and writes SP alone, or finds the stack empty. -/
theorem retPops : Obligations.RetPops := by
  refine fun s => ⟨decodeOfEncode .ret rfl, fun hpos => ?_, exec_ret_of_empty⟩
  have hne : s.sp ≠ 0 := BitVec.toNat_ne_iff_ne.1 hpos.ne'
  exact ⟨_, exec_ret hne, rfl, rfl, rfl, same_of_pc_stack_write rfl⟩

/-! SYS. -/

/-- Settles O24: SYS has no other meaning than the fault, and its word is decoded to it when well-formed. -/
theorem sysAlwaysFaults : Obligations.SysAlwaysFaults :=
  fun nnn _ => ⟨fun hcls hret => decodeOfEncode (.sys nnn) (Bool.and_eq_true_iff.2 ⟨bne_iff_ne.2 hcls, bne_iff_ne.2 hret⟩), rfl⟩

theorem State.byteAt_construct_nil (p : Config.Params) {a : Nat} (h : 0x0A0 ≤ a) :
    (State.construct p []).byteAt a = 0 :=
  Memory.resetByte_outside_font p.font (.inr h)

theorem State.fetch_construct_nil (p : Config.Params) : (State.construct p []).fetch = .ok 0x0000 := by
  have hpc : (State.construct p []).pc.toNat = 0x200 := rfl
  refine State.fetch_eq_ok.2 ⟨by rw [hpc]; decide, ?_⟩
  rw [hpc, State.byteAt_construct_nil p (by decide), State.byteAt_construct_nil p (by decide)]
  rfl

/-- Settles O21: the first word is 0x0000, and the host's moves touch neither pc nor memory. -/
theorem emptyProgramFaults : Obligations.EmptyProgramFaults := by
  intro p
  have hfetch := State.fetch_construct_nil p
  have hstep := step_op (i := .sys 0x000) rfl hfetch (by decide)
  refine ⟨_, hstep, ?_⟩
  rw [State.status_faulted, State.hostMoves_pc, State.fetchedWord_of_fetch (State.hostMoves_fetch.trans hfetch)]
  rfl

/-! Jumps. -/

/-- Settles O26: JP is the jump to the zero-extended address. -/
theorem jpJumps : Obligations.JpJumps :=
  fun nnn s => ⟨decodeOfEncode (.jp nnn) rfl, _, exec_jp nnn s, toNat_zext16 nnn, sameButPc_jump s _⟩

/-- Settles O29: COMPLETE takes the jump to the sum, and SOURCE the fault of the test of the profile. -/
theorem jpV0Jumps : Obligations.JpV0Jumps :=
  fun nnn s => ⟨decodeOfEncode (.jpV0 nnn) rfl,
    fun hp => ⟨_, whenExecuted_complete hp rfl, toNat_offsetTarget nnn _, sameButPc_jump s _⟩,
    fun hp => takesUnimplemented_source hp rfl⟩

/-! Skips. -/

/-- Family 5 does not look at the low nibble (R81). -/
theorem decodeWord_family5 (x y n : Nib) : decodeWord (formatXYN 0x5#4 x y n) = .op (.seVV x y) := by
  rw [decodeWord_of_family (by simp)]
  simp [decodeFamily]

/-- Family 9 does not look at the low nibble (R81). -/
theorem decodeWord_family9 (x y n : Nib) : decodeWord (formatXYN 0x9#4 x y n) = .op (.sneVV x y) := by
  rw [decodeWord_of_family (by simp)]
  simp [decodeFamily]

/-- What the four skips share under COMPLETE, whatever condition the tested Bool stands for. -/
theorem exists_skip_complete {test : Bool} {condition : Prop} [Decidable condition]
    (hexec : exec i s = whenExecuted i s (.next (s.skipIf test))) (hp : s.params.profile = .complete)
    (hi : executed .complete (tagOf i) = true) (htest : test = true ↔ condition) :
    ∃ t, exec i s = .next t ∧ t.pc = s.pc + (if condition then 4 else 2) ∧ SameButPc s t := by
  refine ⟨_, hexec.trans (whenExecuted_complete hp hi), ?_, sameButPc_skipIf s test⟩
  simp only [State.pc_skipIf, htest]

/-- Settles O30: the four tests are equalities and inequalities of a register with a byte or a register. -/
theorem skipsMovePc : Obligations.SkipsMovePc := by
  refine fun x y n kk s => ⟨decodeOfEncode (.seVB x kk) rfl, decodeOfEncode (.sneVB x kk) rfl,
    decodeWord_family5 x y n, decodeWord_family9 x y n, fun hp => ⟨?_, ?_, ?_, ?_⟩, fun hp => ⟨?_, ?_, ?_, ?_⟩⟩
  · exact exists_skip_complete rfl hp rfl beq_iff_eq
  · exact exists_skip_complete rfl hp rfl bne_iff_ne
  · exact exists_skip_complete rfl hp rfl beq_iff_eq
  · exact exists_skip_complete rfl hp rfl bne_iff_ne
  all_goals exact takesUnimplemented_source hp rfl

end Sys2Proof.Machine
end

section
/-! PROOFS. The display: the meanings of CLS and DRW branch by branch, DRW's mask and targets in the terms of the blit
unit's laws, and what the two instructions do to the framebuffer, to VF and to the rest of the state. -/

namespace Sys2Proof.Machine

variable {i : Instr} {s t : State} {x y n : Nib} {c : Cause} {d : Framebuffer × Bool}

/-! The meanings, branch by branch. -/

theorem exec_cls (s : State) : exec .cls s = .next { s with fb := Framebuffer.cleared }.advance :=
  whenExecuted_of_executed (executed_of_source rfl)

theorem exec_drw_of_ok
    (h : drawRows s (s.startColumn x) (s.startRow y) n.toNat 0 (s.fb, false) = .ok d) :
    exec (.drw x y n) s = .next ({ s with fb := d.1 }.setReg vf (collisionFlag d.2)).advance := by
  rw [exec, execDrw, whenExecuted_of_executed (executed_of_source rfl), h]

theorem exec_drw_of_error
    (h : drawRows s (s.startColumn x) (s.startRow y) n.toNat 0 (s.fb, false) = .error c) :
    exec (.drw x y n) s = raiseUnspecified (.drw x y n) c s := by
  rw [exec, execDrw, whenExecuted_of_executed (executed_of_source rfl), h]

/-! What stays as it was. -/

/-- The frame CLS and DRW share. -/
theorem same_of_display_write {f : Framebuffer} {v : Vector Byte 16} {w : Word}
    (ht : t = { s with fb := f, v := v, pc := w }) :
    t.i = s.i ∧ SameMemory s t ∧ SameStack s t ∧ SameTimers s t ∧ SameRest s t := by
  subst ht
  exact ⟨rfl, fun _ => rfl, ⟨rfl, rfl⟩, ⟨rfl, rfl⟩, rfl, rfl, rfl, rfl, rfl, rfl⟩

/-- The timers are not among the fields R110 leaves open. -/
theorem raiseUnspecified_sameTimers (h : raiseUnspecified i c s = .next t) : SameTimers s t := by
  rw [← Host.Outcome.next.inj h]
  exact ⟨rfl, rfl⟩

/-! The collision flag. -/

theorem collisionFlag_eq_one_or_zero (b : Bool) : collisionFlag b = 1 ∨ collisionFlag b = 0 := by
  cases b <;> decide

theorem collisionFlag_eq_one_iff (b : Bool) : collisionFlag b = 1 ↔ b = true := by
  cases b <;> decide

/-! The mask and the targets of DRW, as the laws of the blit unit name them. -/

theorem State.startColumn_lt (s : State) (x : Nib) : s.startColumn x < 64 := Nat.mod_lt _ (by decide)

theorem State.startRow_lt (s : State) (y : Nib) : s.startRow y < 32 := Nat.mod_lt _ (by decide)

theorem State.spriteCovers_eq_rowsCover (s : State) (x y n : Nib) (r : Fin 32) (c : Fin 64) :
    s.spriteCovers x y n r c =
      rowsCover (fun k => s.byteAt (s.atIndex k)) (s.startColumn x) (s.startRow y) 0 n.toNat r c := by
  simp only [State.spriteCovers, rowsCover, coversUpTo, linearTarget, Nat.zero_add]

/-- The mask reads the two start registers, I and memory alone. -/
theorem State.spriteCovers_congr (hx : t.reg x = s.reg x) (hy : t.reg y = s.reg y) (hi : t.i = s.i)
    (hmem : SameMemory s t) (r : Fin 32) (c : Fin 64) :
    t.spriteCovers x y n r c = s.spriteCovers x y n r c := by
  simp only [State.spriteCovers, State.startColumn, State.startRow, State.atIndex, hx, hy, hi, hmem _]

theorem State.rowInGrid_iff {k : Nat} :
    s.rowInGrid x y k ↔ firstTargetBelow (s.startColumn x) (s.startRow y + k) = none :=
  (firstTargetBelow_eq_none (s.startColumn_lt x)).symm

/-- The first target below the grid is the first of the 8 in column order. -/
theorem firstTargetBelow_eq_some {x y j : Nat} (hj : j < 8) (hbelow : 32 ≤ (blitTarget (x + j) y).1)
    (hbefore : ∀ k < j, (blitTarget (x + k) y).1 < 32) :
    firstTargetBelow x y = some (blitTarget (x + j) y) := by
  have hfind : (List.range 8).find? ((fun t => decide (32 ≤ t.1)) ∘ fun k => blitTarget (x + k) y) = some j :=
    List.find?_range_eq_some.2 ⟨by simpa using hbelow, List.mem_range.2 hj, by simpa using hbefore⟩
  rw [firstTargetBelow, List.find?_map, hfind, Option.map_some]

/-- A row just below the grid is left at its start, and the last row of the grid where its columns run over. -/
theorem firstTargetBelow_of_leaves_grid {x y : Nat} (hx : x < 64) (hy : y ≤ 32)
    (h : ¬ (y < 32 ∧ (64 ≤ x + 7 → y + 1 < 32))) :
    firstTargetBelow x y = some (32, if y = 32 then x else 0) := by
  by_cases h32 : y = 32
  · have htarget : blitTarget (x + 0) y = (32, x) := by rw [blitTarget, if_neg (by omega), h32]; rfl
    rw [if_pos h32, firstTargetBelow_eq_some (j := 0) (by decide) (by rw [htarget]) (by omega), htarget]
  · have htarget : blitTarget (x + (64 - x)) y = (32, 0) := by
      rw [blitTarget, if_pos (by omega)]
      exact Prod.ext (by dsimp only; omega) (by dsimp only; omega)
    rw [if_neg h32, firstTargetBelow_eq_some (j := 64 - x) (by omega) (by rw [htarget]) ?_, htarget]
    intro k hk
    rw [blitTarget, if_neg (by omega)]
    exact show y < 32 by omega

/-! CLS and DRW. -/

/-- Settles O31: CLS writes the framebuffer and pc alone. -/
theorem clsClears : Obligations.ClsClears :=
  fun s => ⟨decodeOfEncode .cls rfl, _, exec_cls s, Framebuffer.get_cleared, rfl, fun _ => rfl,
    same_of_display_write rfl⟩

/-- Settles O32: the rows of a DRW XOR their mask into the framebuffer and collide where the two meet, and the rest
of DRW writes VF and pc alone. -/
theorem drwIsXorOfTheSprite : Obligations.DrwIsXorOfTheSprite := by
  intro x y n s hmem hgrid
  obtain ⟨d, hrows, hpixel, hcollides⟩ :=
    drawRows_spec s (s.startColumn x) (s.startRow y) (s.startColumn_lt x) n.toNat 0 (s.fb, false) (by omega)
      (fun k hk => by rw [Nat.zero_add]; exact hmem k hk)
      (hgrid.imp_right fun hin k hk => by rw [Nat.zero_add]; exact State.rowInGrid_iff.1 (hin k hk))
  simp only [← State.spriteCovers_eq_rowsCover] at hpixel hcollides
  refine ⟨_, exec_drw_of_ok hrows, rfl, hpixel, ?_, ?_, ?_, same_of_display_write rfl⟩
  · rw [State.reg_advance, State.reg_setReg_same]
    exact collisionFlag_eq_one_or_zero d.2
  · rw [State.reg_advance, State.reg_setReg_same, collisionFlag_eq_one_iff, hcollides]
    simp [State.pixel]
  · intro r hr
    rw [State.reg_advance, State.reg_setReg_ne _ _ _ _ (mt List.mem_singleton.2 hr)]
    rfl

/-- A DRW whose rows stop at a fault takes it as a fault after a possible write (R110). -/
theorem exists_exec_drw_of_error
    (h : drawRows s (s.startColumn x) (s.startRow y) n.toNat 0 (s.fb, false) = .error c) :
    ∃ t, exec (.drw x y n) s = .next t ∧
      t.status = .faulted ⟨c.kind, s.pc, s.fetchedWord, some .drw, c.info⟩ ∧ SameTimers s t ∧ t.params = s.params := by
  obtain ⟨t, ht⟩ : ∃ t, raiseUnspecified (.drw x y n) c s = .next t := ⟨_, rfl⟩
  exact ⟨t, (exec_drw_of_error h).trans ht, raiseUnspecified_status ht, raiseUnspecified_sameTimers ht,
    raiseUnspecified_params ht⟩

/-- Settles O33: the rows before row k do not stop the DRW, so row k's own fault is the one taken; under FAULT those
rows lie in the grid, so row k starts no lower than just below it. -/
theorem drwFaults : Obligations.DrwFaults := by
  intro x y n s k hk hbefore
  have hrows {c : Cause} := drawRows_fault s (s.startColumn x) (s.startRow y) (c := c) n.toNat 0 k (s.fb, false) hk
  simp only [Nat.zero_add, ← State.rowInGrid_iff] at hrows
  refine ⟨fun hout => ?_, fun hin hfault hleaves => ?_⟩
  · exact exists_exec_drw_of_error (hrows hbefore (.inl ⟨hout, rfl⟩))
  · have hrow : s.startRow y + k ≤ 32 := by
      cases k with
      | zero => exact (s.startRow_lt y).le
      | succ k =>
        obtain ⟨hprev, _⟩ := (hbefore k (by omega)).2.resolve_left (by simp [hfault])
        omega
    have htarget := firstTargetBelow_of_leaves_grid (s.startColumn_lt x) hrow hleaves
    exact exists_exec_drw_of_error (hrows hbefore (.inr ⟨hin, hfault, _, htarget, rfl⟩))

/-- Settles O34: both draws XOR the same mask, since the first leaves the start registers, I and memory, so the second
undoes the first and meets what the first turned on. -/
theorem drwTwiceRestores : Obligations.DrwTwiceRestores := by
  intro x y n s hx hy hmem hwrap
  obtain ⟨t, ht, _, hpixel, _, _, hregs, hi, hsame, _, _, _, hparams, _⟩ :=
    drwIsXorOfTheSprite x y n s hmem (.inl hwrap)
  obtain ⟨u, hu, _, hpixel', _, hcollides, _⟩ :=
    drwIsXorOfTheSprite x y n t (by rwa [hi]) (.inl (by rwa [hparams]))
  have hmask := State.spriteCovers_congr (n := n) (hregs x (mt List.mem_singleton.1 hx))
    (hregs y (mt List.mem_singleton.1 hy)) hi hsame
  refine ⟨t, u, ht, hu, fun r c => ?_, fun hoff => ?_⟩
  · rw [hpixel', hpixel, hmask, Bool.xor_assoc, Bool.xor_self, Bool.xor_false]
  · simp only [hcollides, hmask, hpixel, hoff, Bool.false_xor, and_self]

end Sys2Proof.Machine
end

section
/-! PROOFS. The host's inputs and the register forms: what a COMPLETE step takes from the host before it runs, and the
loads, arithmetic, logic, shifts and RND, which write V and pc alone (LD I: I and pc alone). -/

namespace Sys2Proof.Machine

variable {s : State} {x y : Nib} {a b src result flag : Byte}

/-! The host's inputs. -/

theorem State.nextInput_cons {h : Config.HostInput} {l : List Config.HostInput} (hscript : s.script = h :: l) :
    s.nextInput = h := by
  rw [State.nextInput, hscript]

theorem State.nextInput_nil (hscript : s.script = []) :
    s.nextInput = ⟨Config.freeTicks s.clock, Config.freeKeys s.clock, Config.freeRnd s.clock⟩ := by
  rw [State.nextInput, hscript]

/-- Settles O9: the input is the script's next one or a free one, and the moves write the timers and the model's own
fields alone. -/
theorem hostMovesUnderComplete : Obligations.HostMovesUnderComplete := by
  intro s hp
  rw [State.hostMoves_complete hp]
  refine ⟨s.nextInput, fun g l hscript => ⟨State.nextInput_cons hscript, congrArg List.tail hscript⟩,
    fun hscript => ⟨State.nextInput_nil hscript, congrArg List.tail hscript⟩, rfl, tickedTimer_toNat s.dt,
    tickedTimer_toNat s.st, rfl, rfl, ?_⟩
  exact ⟨fun _ => rfl, rfl, rfl, fun _ => rfl, ⟨rfl, rfl⟩, fun _ _ => rfl, rfl, rfl⟩

/-! What the write of a register, of a register and VF, and of I leave as it was. -/

theorem sameOutsideRegs_of_write {t : State} {v : Vector Byte 16} {i pc : Word}
    (ht : t = { s with v := v, i := i, pc := pc }) : SameOutsideRegs s t := by
  subst ht
  exact ⟨fun _ => rfl, ⟨rfl, rfl⟩, fun _ _ => rfl, ⟨rfl, rfl⟩, rfl, rfl, rfl, rfl, rfl, rfl⟩

/-- The frame of the forms that write V[x] and advance. -/
theorem same_of_setReg (s : State) (x : Nib) (b : Byte) :
    (s.setReg x b).advance.pc = s.pc + 2 ∧ SameRegsExcept s (s.setReg x b).advance [x] ∧
      SameButRegs s (s.setReg x b).advance :=
  ⟨rfl, fun r hr => State.reg_setReg_ne s x r b (mt List.mem_singleton.2 hr), rfl, sameOutsideRegs_of_write rfl⟩

/-- The frame of the forms that write V[x], then VF, and advance. -/
theorem same_of_setRegAndFlag (s : State) (x : Nib) (result flag : Byte) :
    (s.setRegAndFlag x result flag).advance.pc = s.pc + 2 ∧
      SameRegsExcept s (s.setRegAndFlag x result flag).advance [x, vf] ∧
      SameButRegs s (s.setRegAndFlag x result flag).advance := by
  refine ⟨rfl, fun r hr => ?_, rfl, sameOutsideRegs_of_write rfl⟩
  obtain ⟨hx, hvf⟩ : r ≠ x ∧ r ≠ vf := by simpa using hr
  rw [State.reg_advance, State.setRegAndFlag, State.reg_setReg_ne _ _ _ _ hvf, State.reg_setReg_ne _ _ _ _ hx]

/-! The result and the flag, which is written last (R174, D17). -/

theorem State.reg_setRegAndFlag (hx : x ≠ vf) : (s.setRegAndFlag x result flag).reg x = result := by
  rw [State.setRegAndFlag, State.reg_setReg_ne _ _ _ _ hx, State.reg_setReg_same]

theorem State.reg_vf_setRegAndFlag : (s.setRegAndFlag x result flag).reg vf = flag :=
  State.reg_setReg_same _ vf flag

/-! The values: differences and flags as numbers. -/

/-- The difference modulo 256, as R168 and R170 write it. -/
theorem toNat_byte_sub (a b : Byte) : (a - b).toNat = (a.toNat + 256 - b.toNat) % 256 := by
  bv_omega

theorem flagByte_decide (p : Prop) [Decidable p] : flagByte (decide p) = if p then 1 else 0 := by
  simp only [flagByte, decide_eq_true_eq]

theorem toNat_flagByte (b : Bool) : (flagByte b).toNat = b.toNat := by
  cases b <;> rfl

theorem toNat_shiftedOutRight (src : Byte) : (shiftedOutRight src).toNat = src.toNat % 2 := by
  rw [shiftedOutRight, toNat_flagByte, BitVec.getLsbD, Nat.toNat_testBit, Nat.pow_zero, Nat.div_one]

/-- Bit 7 of a byte is all that is left above its low 7 bits. -/
theorem toNat_shiftedOutLeft (src : Byte) : (shiftedOutLeft src).toNat = src.toNat / 128 := by
  rw [shiftedOutLeft, toNat_flagByte, BitVec.getLsbD, Nat.toNat_testBit]
  omega

theorem State.shiftOperand_eq (hvx : s.params.shiftSource = .vx → src = s.reg x)
    (hvy : s.params.shiftSource = .vy → src = s.reg y) : s.shiftOperand x y = src := by
  unfold State.shiftOperand
  split
  · next h => exact (hvx h).symm
  · next h => exact (hvy h).symm

/-! LD and ADD with a byte, LD I. -/

/-- Settles O35: both forms execute under every profile. -/
theorem ldVAndAddV : Obligations.LdVAndAddV := by
  refine fun x kk s => ⟨decodeOfEncode (.ldV x kk) rfl, decodeOfEncode (.addV x kk) rfl, ?_, ?_⟩
  · exact ⟨_, whenExecuted_of_executed (executed_of_source rfl), State.reg_setReg_same s x _, same_of_setReg s x _⟩
  · refine ⟨_, whenExecuted_of_executed (executed_of_source rfl), ?_, same_of_setReg s x _⟩
    rw [State.reg_advance, State.reg_setReg_same, BitVec.toNat_add]

/-- Settles O36: LD I executes under every profile and writes the address as it stands. -/
theorem setIWritesIndex : Obligations.SetIWritesIndex :=
  fun nnn _ => ⟨decodeOfEncode (.setI nnn) rfl, _, whenExecuted_of_executed (executed_of_source rfl), toNat_zext16 nnn,
    rfl, fun _ => rfl, sameOutsideRegs_of_write rfl⟩

/-! The forms of COMPLETE alone that write V[x]. -/

/-- What they share under COMPLETE, whatever byte they write. -/
theorem exists_setReg_complete {i : Instr} (hexec : exec i s = whenExecuted i s (.next (s.setReg x b).advance))
    (hp : s.params.profile = .complete) (hi : executed .complete (tagOf i) = true) :
    ∃ t, exec i s = .next t ∧ t.reg x = b ∧ t.pc = s.pc + 2 ∧ SameRegsExcept s t [x] ∧ SameButRegs s t :=
  ⟨_, hexec.trans (whenExecuted_complete hp hi), State.reg_setReg_same s x b, same_of_setReg s x b⟩

/-- Settles O37: the four forms differ in the byte they write alone. -/
theorem copyAndLogic : Obligations.CopyAndLogic := by
  refine fun x y s => ⟨decodeOfEncode (.ldVV x y) rfl, decodeOfEncode (.or x y) rfl, decodeOfEncode (.and x y) rfl,
    decodeOfEncode (.xor x y) rfl, fun hp => ⟨?_, ?_, ?_, ?_⟩, fun hp => ⟨?_, ?_, ?_, ?_⟩⟩
  iterate 4 exact exists_setReg_complete rfl hp rfl
  all_goals exact takesUnimplemented_source hp rfl

/-- Settles O41: the byte written is the step's draw under the mask. -/
theorem rndMasksTheDraw : Obligations.RndMasksTheDraw :=
  fun x kk _ => ⟨decodeOfEncode (.rnd x kk) rfl, fun hp => exists_setReg_complete rfl hp rfl,
    fun hp => takesUnimplemented_source hp rfl⟩

/-! The forms of COMPLETE alone that write V[x] and then VF. -/

/-- What they share under COMPLETE, whatever result and flag they write. -/
theorem exists_setRegAndFlag_complete {i : Instr}
    (hexec : exec i s = whenExecuted i s (.next (s.setRegAndFlag x result flag).advance))
    (hp : s.params.profile = .complete) (hi : executed .complete (tagOf i) = true) :
    ∃ t, exec i s = .next t ∧ (x ≠ vf → t.reg x = result) ∧ t.reg vf = flag ∧
      t.pc = s.pc + 2 ∧ SameRegsExcept s t [x, vf] ∧ SameButRegs s t :=
  ⟨_, hexec.trans (whenExecuted_complete hp hi), State.reg_setRegAndFlag, State.reg_vf_setRegAndFlag,
    same_of_setRegAndFlag s x result flag⟩

/-- Settles O38: the sum modulo 256 and the carry out of bit 7. -/
theorem addVVCarries : Obligations.AddVVCarries := by
  refine fun x y s => ⟨decodeOfEncode (.addVV x y) rfl, fun hp => ?_, fun hp => takesUnimplemented_source hp rfl⟩
  obtain ⟨t, ht, hsum, hcarry, hsame⟩ := exists_setRegAndFlag_complete (i := .addVV x y) rfl hp rfl
  exact ⟨t, ht, fun hx => by rw [hsum hx, BitVec.toNat_add], hcarry.trans (flagByte_decide _), hsame⟩

/-- What SUB and SUBN share under COMPLETE, whatever the two operands: NOT borrow is 1 at equality (D18). -/
theorem exists_difference_complete {i : Instr}
    (hexec : exec i s = whenExecuted i s (.next (s.setRegAndFlag x (a - b) (notBorrowFlag a b)).advance))
    (hp : s.params.profile = .complete) (hi : executed .complete (tagOf i) = true) :
    ∃ t, exec i s = .next t ∧ (x ≠ vf → (t.reg x).toNat = (a.toNat + 256 - b.toNat) % 256) ∧
      t.reg vf = (if b.toNat ≤ a.toNat then 1 else 0) ∧
      t.pc = s.pc + 2 ∧ SameRegsExcept s t [x, vf] ∧ SameButRegs s t := by
  obtain ⟨t, ht, hdiff, hflag, hsame⟩ := exists_setRegAndFlag_complete hexec hp hi
  exact ⟨t, ht, fun hx => by rw [hdiff hx, toNat_byte_sub], hflag.trans (flagByte_decide _), hsame⟩

/-- Settles O39: SUBN is SUB with the two operands exchanged, its result still in V[x]. -/
theorem subtractionsSetNotBorrow : Obligations.SubtractionsSetNotBorrow :=
  fun x y _ => ⟨decodeOfEncode (.sub x y) rfl, decodeOfEncode (.subn x y) rfl,
    fun hp => ⟨exists_difference_complete rfl hp rfl, exists_difference_complete rfl hp rfl⟩,
    fun hp => ⟨takesUnimplemented_source hp rfl, takesUnimplemented_source hp rfl⟩⟩

/-- Settles O40: SHR halves the operand and shifts out its remainder, SHL doubles it modulo 256 and shifts out its
bit 7. -/
theorem shiftsMoveOneBit : Obligations.ShiftsMoveOneBit := by
  intro x y s src hvx hvy
  obtain rfl := State.shiftOperand_eq hvx hvy
  refine ⟨decodeOfEncode (.shr x y) rfl, decodeOfEncode (.shl x y) rfl, fun hp => ⟨?_, ?_⟩,
    fun hp => ⟨takesUnimplemented_source hp rfl, takesUnimplemented_source hp rfl⟩⟩
  · obtain ⟨t, ht, hhalf, hbit, hsame⟩ := exists_setRegAndFlag_complete (i := .shr x y) rfl hp rfl
    exact ⟨t, ht, fun hx => by rw [hhalf hx, BitVec.toNat_ushiftRight, Nat.shiftRight_one],
      by rw [hbit, toNat_shiftedOutRight], hsame⟩
  · obtain ⟨t, ht, hdouble, hbit, hsame⟩ := exists_setRegAndFlag_complete (i := .shl x y) rfl hp rfl
    exact ⟨t, ht, fun hx => by rw [hdouble hx, BitVec.toNat_shiftLeft, Nat.shiftLeft_eq, Nat.pow_one],
      by rw [hbit, toNat_shiftedOutLeft], hsame⟩

end Sys2Proof.Machine
end

section
/-! PROOFS. Index arithmetic and block memory: the values ADD I, LD F and LD B write, the meanings of the three block
forms branch by branch, and what they store, load and leave as it was. -/

namespace Sys2Proof.Machine

variable {i : Instr} {s t : State} {x : Nib} {w : Word} {c : Cause} {bs : List Byte} {a r : Nat}

/-! The values: sums, glyph addresses and decimal digits as numbers. -/

theorem toNat_add_byte (w : Word) (b : Byte) : (w + b.setWidth 16).toNat = (w.toNat + b.toNat) % 65536 := by
  bv_omega

theorem toNat_glyphAddress (d : Byte) : (glyphAddress d).toNat = 0x050 + 5 * (d.toNat % 16) :=
  Nat.mod_eq_of_lt (by simp only [fontBase]; omega)

theorem toNat_hundreds (v : Byte) : (hundreds v).toNat = v.toNat / 100 :=
  Nat.mod_eq_of_lt (by omega)

theorem toNat_tens (v : Byte) : (tens v).toNat = v.toNat / 10 % 10 :=
  Nat.mod_eq_of_lt (by omega)

theorem toNat_ones (v : Byte) : (ones v).toNat = v.toNat % 10 :=
  Nat.mod_eq_of_lt (by omega)

/-- What LD B stores (R192). -/
def decimalDigits (v : Byte) : List Byte := [hundreds v, tens v, ones v]

theorem State.toNat_indexAfterBlock (s : State) (x : Nib) :
    (s.indexAfterBlock x).toNat =
      if s.params.loadStoreIncrementsI then (s.i.toNat + x.toNat + 1) % 65536 else s.i.toNat := by
  unfold State.indexAfterBlock
  split
  · bv_omega
  · rfl

/-! ADD I and LD F. -/

/-- What the two forms share under COMPLETE, whatever address they write. -/
theorem exists_setI_complete (hexec : exec i s = whenExecuted i s (.next (s.setI w).advance))
    (hp : s.params.profile = .complete) (hi : executed .complete (tagOf i) = true) :
    ∃ t, exec i s = .next t ∧ t.i = w ∧ t.pc = s.pc + 2 ∧ SameRegs s t ∧ SameOutsideRegs s t :=
  ⟨_, hexec.trans (whenExecuted_complete hp hi), rfl, rfl, fun _ => rfl, sameOutsideRegs_of_write rfl⟩

/-- Settles O42: the two forms differ in the address they write alone. -/
theorem indexArithmetic : Obligations.IndexArithmetic := by
  refine fun x s => ⟨decodeOfEncode (.addI x) rfl, decodeOfEncode (.ldF x) rfl, fun hp => ⟨?_, ?_⟩,
    fun hp => ⟨takesUnimplemented_source hp rfl, takesUnimplemented_source hp rfl⟩⟩
  · obtain ⟨t, ht, hsum, hsame⟩ := exists_setI_complete (i := .addI x) rfl hp rfl
    exact ⟨t, ht, by rw [hsum, toNat_add_byte], hsame⟩
  · obtain ⟨t, ht, hglyph, hsame⟩ := exists_setI_complete (i := .ldF x) rfl hp rfl
    exact ⟨t, ht, by rw [hglyph, toNat_glyphAddress], hsame⟩

/-! The meanings of the block forms, branch by branch. -/

@[simp] theorem State.atIndex_zero (s : State) : s.atIndex 0 = s.i.toNat := rfl

theorem exec_ldB_of_ok (hp : s.params.profile = .complete)
    (h : s.storeBytes s.i.toNat (decimalDigits (s.reg x)) = .ok t) :
    exec (.ldB x) s = .next t.advance := by
  rw [exec, execLdB, whenExecuted_complete hp rfl, State.atIndex_zero, ← decimalDigits, h]

theorem exec_ldB_of_error (hp : s.params.profile = .complete)
    (h : s.storeBytes s.i.toNat (decimalDigits (s.reg x)) = .error c) :
    exec (.ldB x) s = raiseUnspecified (.ldB x) c s := by
  rw [exec, execLdB, whenExecuted_complete hp rfl, State.atIndex_zero, ← decimalDigits, h]

theorem exec_ldIV_of_ok (hp : s.params.profile = .complete)
    (h : s.storeBytes s.i.toNat (s.regsUpTo x) = .ok t) :
    exec (.ldIV x) s = .next (t.setI (s.indexAfterBlock x)).advance := by
  rw [exec, execLdIV, whenExecuted_complete hp rfl, State.atIndex_zero, h]

theorem exec_ldIV_of_error (hp : s.params.profile = .complete)
    (h : s.storeBytes s.i.toNat (s.regsUpTo x) = .error c) :
    exec (.ldIV x) s = raiseUnspecified (.ldIV x) c s := by
  rw [exec, execLdIV, whenExecuted_complete hp rfl, State.atIndex_zero, h]

theorem exec_ldVI_of_ok (hp : s.params.profile = .complete)
    (h : s.loadRegs (x.toNat + 1) 0 s.i.toNat = .ok t) :
    exec (.ldVI x) s = .next (t.setI (s.indexAfterBlock x)).advance := by
  rw [exec, execLdVI, whenExecuted_complete hp rfl, State.atIndex_zero, h]

theorem exec_ldVI_of_error (hp : s.params.profile = .complete)
    (h : s.loadRegs (x.toNat + 1) 0 s.i.toNat = .error c) :
    exec (.ldVI x) s = raiseUnspecified (.ldVI x) c s := by
  rw [exec, execLdVI, whenExecuted_complete hp rfl, State.atIndex_zero, h]

/-- A block form that stops at an access takes its fault as a fault after a possible write (R110). -/
theorem exists_status_of_raiseUnspecified (hexec : exec i s = raiseUnspecified i c s) :
    ∃ t, exec i s = .next t ∧ t.status = .faulted ⟨c.kind, s.pc, s.fetchedWord, some (tagOf i), c.info⟩ :=
  ⟨_, hexec, raiseUnspecified_status rfl⟩

/-! Blocks of bytes in memory. -/

/-- Every byte of a block loaded inside MEM reads as loaded. -/
theorem State.byteAt_load_add (s : State) (h : a + bs.length ≤ memSize) (hr : r < bs.length) :
    (s.load a bs).byteAt (a + r) = bs[r] := by
  rw [State.byteAt_load, dif_pos (by omega)]
  simp only [Nat.add_sub_cancel_left]

/-- The loader changes no field but memory: the frame of LD B and LD [I]. -/
theorem State.same_of_load (s : State) (a : Nat) (bs : List Byte) :
    SameRegs s (s.load a bs) ∧ (s.load a bs).i = s.i ∧ SameStack s (s.load a bs) ∧ SameDisplay s (s.load a bs) ∧
      SameTimers s (s.load a bs) ∧ SameRest s (s.load a bs) := by
  obtain ⟨m, hm⟩ := State.load_mem_only (s := s) (a := a) bs
  rw [hm]
  exact ⟨fun _ => rfl, rfl, ⟨rfl, rfl⟩, fun _ _ => rfl, ⟨rfl, rfl⟩, rfl, rfl, rfl, rfl, rfl, rfl⟩

theorem State.pc_advance_load (s : State) (a : Nat) (bs : List Byte) : (s.load a bs).advance.pc = s.pc + 2 := by
  rw [State.pc_advance, State.pc_load]

@[simp] theorem State.length_regsUpTo (s : State) (x : Nib) : (s.regsUpTo x).length = x.toNat + 1 := by
  simp [State.regsUpTo]

theorem State.getElem_regsUpTo (s : State) (x r : Nib) (h : r.toNat < (s.regsUpTo x).length) :
    (s.regsUpTo x)[r.toNat] = s.reg r := by
  simp [State.regsUpTo]

/-! The block forms. -/

/-- Settles O43: the three digits are stored as a block of bytes at I, or the stores fault where they leave MEM. -/
theorem bcdStoresDigits : Obligations.BcdStoresDigits := by
  refine fun x s => ⟨decodeOfEncode (.ldB x) rfl, fun hp hfits => ?_, fun hp hleaves => ?_,
    fun hp => takesUnimplemented_source hp rfl⟩
  · obtain ⟨hregs, hi, hrest⟩ := s.same_of_load s.i.toNat (decimalDigits (s.reg x))
    have houtside := s.sameMemoryOutside_load s.i.toNat (decimalDigits (s.reg x))
    have hbyte (r : Nat) (hr : r < 3) := s.byteAt_load_add (bs := decimalDigits (s.reg x)) hfits hr
    refine ⟨_, exec_ldB_of_ok hp (State.storeBytes_eq_load _ _ hfits), ?_, ?_, ?_, houtside, s.pc_advance_load _ _,
      hregs, hi, hrest⟩
    · exact (congrArg BitVec.toNat (hbyte 0 (by decide))).trans (toNat_hundreds _)
    · exact (congrArg BitVec.toNat (hbyte 1 (by decide))).trans (toNat_tens _)
    · exact (congrArg BitVec.toNat (hbyte 2 (by decide))).trans (toNat_ones _)
  · exact exists_status_of_raiseUnspecified
      (exec_ldB_of_error hp (State.storeBytes_error _ _ (List.cons_ne_nil _ _) hleaves))

/-- Settles O44: V0 to Vx are stored as a block of bytes at I, or the stores fault where they leave MEM. -/
theorem blockStore : Obligations.BlockStore := by
  refine fun x s => ⟨decodeOfEncode (.ldIV x) rfl, fun hp hfits => ?_, fun hp hleaves => ?_,
    fun hp => takesUnimplemented_source hp rfl⟩
  · have hblock : s.i.toNat + (s.regsUpTo x).length ≤ memSize := by rwa [State.length_regsUpTo]
    have houtside := s.sameMemoryOutside_load s.i.toNat (s.regsUpTo x)
    rw [State.length_regsUpTo] at houtside
    obtain ⟨hregs, _, hrest⟩ := s.same_of_load s.i.toNat (s.regsUpTo x)
    refine ⟨_, exec_ldIV_of_ok hp (State.storeBytes_eq_load _ _ hblock), fun r hr => ?_, houtside,
      s.toNat_indexAfterBlock x, s.pc_advance_load _ _, hregs, hrest⟩
    have hlen : r.toNat < (s.regsUpTo x).length := by rw [State.length_regsUpTo]; omega
    exact (s.byteAt_load_add hblock hlen).trans (s.getElem_regsUpTo x r hlen)
  · have hne : s.regsUpTo x ≠ [] := List.ne_nil_of_length_eq_add_one (s.length_regsUpTo x)
    have hblock : memSize < s.i.toNat + (s.regsUpTo x).length := by
      rw [State.length_regsUpTo]
      exact Nat.lt_succ_of_le hleaves
    exact exists_status_of_raiseUnspecified (exec_ldIV_of_error hp (State.storeBytes_error _ _ hne hblock))

/-- Settles O45: the loads write V0 to Vx alone, or fault where they leave MEM. -/
theorem blockLoad : Obligations.BlockLoad := by
  refine fun x s => ⟨decodeOfEncode (.ldVI x) rfl, fun hp hfits => ?_, fun hp hleaves => ?_,
    fun hp => takesUnimplemented_source hp rfl⟩
  · obtain ⟨v, hload, hreg⟩ := State.loadRegs_spec (x.toNat + 1) s 0 s.i.toNat (by omega) hfits
    refine ⟨_, exec_ldVI_of_ok hp hload, fun r => ?_, s.toNat_indexAfterBlock x, rfl, sameOutsideRegs_of_write rfl⟩
    rw [State.reg_advance, State.reg_setI, hreg]
    simp only [Nat.zero_le, Nat.zero_add, Nat.sub_zero, true_and, Nat.lt_succ_iff]
  · exact exists_status_of_raiseUnspecified
      (exec_ldVI_of_error hp (State.loadRegs_error _ _ _ _ (Nat.lt_succ_of_le hleaves) (Nat.succ_pos _)))

end Sys2Proof.Machine
end

section
/-! PROOFS. Timers and keys: what the timer loads write, which key LD Vx, K takes, the meanings of the key forms branch
by branch, and when the sound is on. -/

namespace Sys2Proof.Machine

variable {s t : State} {x : Nib} {keys : BitVec 16}

/-! Timers. -/

/-- The frame LD DT and LD ST share. -/
theorem same_of_timer_write {d u : Byte} {w : Word} (ht : t = { s with dt := d, st := u, pc := w }) :
    SameRegs s t ∧ t.i = s.i ∧ SameMemory s t ∧ SameStack s t ∧ SameDisplay s t ∧ SameRest s t := by
  subst ht
  exact ⟨fun _ => rfl, rfl, fun _ => rfl, ⟨rfl, rfl⟩, fun _ _ => rfl, rfl, rfl, rfl, rfl, rfl, rfl⟩

/-- Settles O46: LD Vx, DT is a write of V[x], and the two other forms write a timer and pc alone. -/
theorem timerLoads : Obligations.TimerLoads := by
  refine fun x s => ⟨decodeOfEncode (.ldVDT x) rfl, decodeOfEncode (.ldDT x) rfl, decodeOfEncode (.ldST x) rfl,
    fun hp => ⟨exists_setReg_complete rfl hp rfl, ?_, ?_⟩, fun hp => ⟨?_, ?_, ?_⟩⟩
  iterate 2 exact ⟨_, whenExecuted_complete hp rfl, rfl, rfl, rfl, same_of_timer_write rfl⟩
  all_goals exact takesUnimplemented_source hp rfl

/-- Settles O49: ST > 0 says of the byte that it is not 0. -/
theorem soundFollowsTimer : Obligations.SoundFollowsTimer := by
  refine fun s => ⟨fun hp => ?_, fun hp => ?_⟩
  · have hpos : 0 < s.st.toNat ↔ s.st ≠ 0 := Nat.pos_iff_ne_zero.trans (BitVec.toNat_ne_iff_ne (y := 0#8))
    simp [State.soundOn, hp, hpos]
  · simp [State.soundOn, hp]

/-! LD Vx, K. -/

/-- Some key of a sampled set that is not empty is pressed. -/
theorem exists_pressed (h : keys ≠ 0) : ∃ k < 16, keys.getLsbD k = true := by
  contrapose! h
  exact BitVec.eq_of_getLsbD_eq fun k hk => by simpa using h k hk

/-- The choice of LD Vx, K is a key, it is pressed, and no lower one is (R203). -/
theorem lowestKey_spec (h : keys ≠ 0) :
    (lowestKey keys).toNat < 16 ∧ keys.getLsbD (lowestKey keys).toNat = true ∧
      ∀ j < (lowestKey keys).toNat, keys.getLsbD j = false := by
  obtain ⟨p, hp, hpressed⟩ := exists_pressed h
  have hsome : ((List.range 16).find? fun k => keys.getLsbD k).isSome :=
    List.find?_isSome.2 ⟨p, List.mem_range.2 hp, hpressed⟩
  obtain ⟨k, hfind⟩ := Option.isSome_iff_exists.1 hsome
  obtain ⟨hk, hmem, hlower⟩ := List.find?_range_eq_some.1 hfind
  have hlt : k < 16 := List.mem_range.1 hmem
  have hchoice : (lowestKey keys).toNat = k := by
    rw [lowestKey, hfind, Option.getD_some, BitVec.toNat_ofNat]
    exact Nat.mod_eq_of_lt (by omega)
  rw [hchoice]
  exact ⟨hlt, hk, fun j hj => by simpa using hlower j hj⟩

theorem exec_ldK_of_no_key (hp : s.params.profile = .complete) (h : s.keys = 0) : exec (.ldK x) s = .next s := by
  rw [exec, execLdK, whenExecuted_complete hp rfl, if_pos h]

theorem exec_ldK_of_key (h : s.keys ≠ 0) :
    exec (.ldK x) s = whenExecuted (.ldK x) s (.next (s.setReg x (lowestKey s.keys)).advance) := by
  rw [exec, execLdK, if_neg h]

/-- Settles O47: with a key pressed LD Vx, K is a write of V[x], of the key it chooses. -/
theorem keyWait : Obligations.KeyWait := by
  refine fun x s => ⟨decodeOfEncode (.ldK x) rfl, exec_ldK_of_no_key, fun hp hkeys => ?_,
    fun hp => takesUnimplemented_source hp rfl⟩
  obtain ⟨t, ht, hreg, hsame⟩ := exists_setReg_complete (exec_ldK_of_key hkeys) hp rfl
  obtain ⟨hlt, hpressed, hlower⟩ := lowestKey_spec hkeys
  exact ⟨t, _, ht, hlt, hpressed, hlower, congrArg BitVec.toNat hreg, hsame⟩

/-! SKP and SKNP. -/

theorem exec_skp_of_key (h : (s.reg x).toNat ≤ 15) :
    exec (.skp x) s = whenExecuted (.skp x) s (.next (s.skipIf (s.keys.getLsbD (s.reg x).toNat))) := by
  rw [exec, execSkp, State.keyPressed_eq_ok.2 ⟨h, rfl⟩]

theorem exec_sknp_of_key (h : (s.reg x).toNat ≤ 15) :
    exec (.sknp x) s = whenExecuted (.sknp x) s (.next (s.skipIf (!s.keys.getLsbD (s.reg x).toNat))) := by
  rw [exec, execSknp, State.keyPressed_eq_ok.2 ⟨h, rfl⟩]

theorem exec_skp_of_no_such_key (hp : s.params.profile = .complete) (h : 15 < (s.reg x).toNat) :
    exec (.skp x) s = raise (.skp x) ⟨.keyOutOfRange, .key (s.reg x)⟩ s := by
  rw [exec, execSkp, whenExecuted_complete hp rfl, State.keyPressed_eq_error.2 ⟨h, rfl⟩]

theorem exec_sknp_of_no_such_key (hp : s.params.profile = .complete) (h : 15 < (s.reg x).toNat) :
    exec (.sknp x) s = raise (.sknp x) ⟨.keyOutOfRange, .key (s.reg x)⟩ s := by
  rw [exec, execSknp, whenExecuted_complete hp rfl, State.keyPressed_eq_error.2 ⟨h, rfl⟩]

/-- Settles O48: up to 15 the two forms are skips, whose tests are each other's negation, and above 15 both fault before
any write. -/
theorem keySkips : Obligations.KeySkips := by
  refine fun x s => ⟨decodeOfEncode (.skp x) rfl, decodeOfEncode (.sknp x) rfl, fun hp hkey => ⟨?_, ?_⟩,
    fun hp hout => ⟨exec_skp_of_no_such_key hp hout, exec_sknp_of_no_such_key hp hout⟩,
    fun hp => ⟨takesUnimplemented_source hp rfl, takesUnimplemented_source hp rfl⟩⟩
  · exact exists_skip_complete (exec_skp_of_key hkey) hp rfl Iff.rfl
  · exact exists_skip_complete (exec_sknp_of_key hkey) hp rfl (iff_of_eq (Bool.not_eq_true' _))

end Sys2Proof.Machine
end

section
/-! PROOFS. Exceptions: the fault of a fetch, and what the record of a fault an instruction takes holds. -/

namespace Sys2Proof.Machine

variable {i : Instr} {s t : State} {c : Cause} {r : FaultRecord}

/-! Fetch faults. -/

/-- A cycle whose fetch faults takes that fault before there is a word to decode (R221, R229). -/
theorem runCycle_fetch_error (hfetch : s.fetch = .error c) : runCycle s = .next (s.faulted none none c) := by
  simp [runCycle, hfetch]

/-- Settles O11: the host's moves do not touch pc, so the cycle after them has the fetch fault of the state before. -/
theorem fetchFaultIsTaken : Obligations.FetchFaultIsTaken := by
  intro s hrun hout
  rw [← State.hostMoves_pc (s := s)] at hout ⊢
  rw [step_running hrun, runCycle_fetch_error (State.fetch_eq_error.2 ⟨hout, rfl⟩)]
  rfl

/-! The record of an instruction's fault. -/

/-- Of the effects, the two faults alone end a Running machine's instruction in Faulted, and both fill the record from
the state before the instruction, whatever the late one leaves in pc and memory (R110, R221). -/
theorem Effect.faultRecord_eq (h : Effect i s t) (hrun : s.status = .running) (hfault : t.status = .faulted r) :
    ∃ c : Cause, r = ⟨c.kind, s.pc, s.fetchedWord, some (tagOf i), c.info⟩ := by
  have not_faulted (hs : s.status = .faulted r) : False := by simp [hrun] at hs
  cases h with
  | early c =>
    cases hfault
    exact ⟨c, rfl⟩
  | late c _ _ hlate =>
    cases (raiseUnspecified_status hlate).symm.trans hfault
    exact ⟨c, rfl⟩
  | _ => exact (not_faulted hfault).elim

/-- Settles O16: the three fields are those of the record of an effect that ends in a fault. -/
theorem faultsArePrecise : Obligations.FaultsArePrecise := by
  intro i s t r hrun hexec hfault
  obtain ⟨c, rfl⟩ := (exec_effect hexec).faultRecord_eq hrun hfault
  exact ⟨rfl, rfl, rfl⟩

end Sys2Proof.Machine
end

section
/-! PROOFS. Reset and hazards: a normal end is its own successor, and under SOURCE no step reads the host's inputs. -/

namespace Sys2Proof.Machine

variable {i : Instr} {s t : State} {a : Addr} {r r' body body' : Result}
variable {k : BitVec 16} {b : Byte} {l : List Config.HostInput} {n : Nat}

/-! Normal ends. -/

theorem State.jump_pc (s : State) : s.jump s.pc = s := rfl

/-- What makes a normal end, the host's moves do not touch. -/
theorem State.normalEndAt_hostMoves (h : s.normalEndAt a) : s.hostMoves.normalEndAt a := by
  unfold State.normalEndAt
  rwa [State.hostMoves_status, State.hostMoves_pc, State.hostMoves_fetch]

/-- Settles O58: the step runs the jump, whose target is the pc it starts from. -/
theorem normalEndRepeats : Obligations.NormalEndRepeats := by
  intro s a hend
  have hmoved := State.normalEndAt_hostMoves hend
  refine ⟨?_, hmoved, State.hostMoves_source⟩
  obtain ⟨hrun, _, hfetch⟩ := hend
  obtain ⟨_, hpc, _⟩ := hmoved
  rw [step_op hrun hfetch (decodeOfEncode (.jp a) rfl), exec_jp, ← hpc, State.jump_pc]

/-! Two runs that differ in the host's inputs (R258). -/

/-- The state with other host inputs. -/
def State.withHostInputs (s : State) (k : BitVec 16) (b : Byte) (l : List Config.HostInput) (n : Nat) : State :=
  { s with keys := k, rnd := b, script := l, clock := n }

/-- How the answers from `s` and from `s` with other host inputs compare: they differ in the host inputs alone, or both
take the same fault after a possible write, where R110 leaves the rest open. -/
inductive AgreeUpToInputs (s : State) (k : BitVec 16) (b : Byte) (l : List Config.HostInput) (n : Nat) :
    Result → Result → Prop where
  | fault (f : Fault) : AgreeUpToInputs s k b l n (.fault f) (.fault f)
  | next (t : State) : AgreeUpToInputs s k b l n (.next t) (.next (t.withHostInputs k b l n))
  | late (i : Instr) (c : Cause) :
      AgreeUpToInputs s k b l n (raiseUnspecified i c s) (raiseUnspecified i c (s.withHostInputs k b l n))

/-- Taking a fault writes the status alone, from pc and memory. -/
theorem AgreeUpToInputs.of_raise (i : Instr) (c : Cause) :
    AgreeUpToInputs s k b l n (raise i c s) (raise i c (s.withHostInputs k b l n)) :=
  .next (s.faulted s.fetchedWord (some (tagOf i)) c)

/-- The test of the profile does not read the host's inputs. -/
theorem AgreeUpToInputs.of_whenExecuted (h : AgreeUpToInputs s k b l n body body') :
    AgreeUpToInputs s k b l n (whenExecuted i s body) (whenExecuted i (s.withHostInputs k b l n) body') := by
  cases hx : executed s.params.profile (tagOf i) with
  | true => rwa [whenExecuted_of_executed hx, whenExecuted_of_executed (s := s.withHostInputs k b l n) hx]
  | false =>
    rw [whenExecuted_of_not_executed hx, whenExecuted_of_not_executed (s := s.withHostInputs k b l n) hx]
    exact .of_raise i _

theorem AgreeUpToInputs.of_not_executed (hx : executed s.params.profile (tagOf i) = false) :
    AgreeUpToInputs s k b l n (exec i s) (exec i (s.withHostInputs k b l n)) := by
  rw [exec_of_not_executed hx, exec_of_not_executed (s := s.withHostInputs k b l n) hx]
  exact .of_raise i _

/-- The rows of a DRW read I, memory and the parameters. -/
theorem drawRows_withHostInputs (x0 y0 rows row : Nat) (acc : Framebuffer × Bool) :
    drawRows (s.withHostInputs k b l n) x0 y0 rows row acc = drawRows s x0 y0 rows row acc := by
  induction rows generalizing row acc with
  | zero => rfl
  | succ rows ih =>
    simp only [drawRows, ih]
    rfl

/-- Of the forms SOURCE executes none reads the host's inputs, and the others take the fault of the test of the profile
(R259). -/
theorem exec_withHostInputs (hp : s.params.profile = .source) :
    AgreeUpToInputs s k b l n (exec i s) (exec i (s.withHostInputs k b l n)) := by
  cases i with
  | cls | jp | ldV | addV | setI => exact .of_whenExecuted (.next _)
  | ret =>
    by_cases hsp : s.sp = 0
    · rw [exec_ret_of_empty hsp, exec_ret_of_empty (s := s.withHostInputs k b l n) hsp]
      exact .of_raise _ _
    · rw [exec_ret hsp, exec_ret (s := s.withHostInputs k b l n) hsp]
      exact .next _
  | call nnn =>
    by_cases hsp : s.sp.toNat < 255
    · rw [exec_call hsp, exec_call (s := s.withHostInputs k b l n) hsp]
      exact .next _
    · have hfull : s.sp = 255 := by bv_omega
      rw [exec_call_of_full hfull, exec_call_of_full (s := s.withHostInputs k b l n) hfull]
      exact .of_raise _ _
  | drw x y rows =>
    have hrows := drawRows_withHostInputs (s := s) (k := k) (b := b) (l := l) (n := n)
      (s.startColumn x) (s.startRow y) rows.toNat 0 (s.fb, false)
    cases hd : drawRows s (s.startColumn x) (s.startRow y) rows.toNat 0 (s.fb, false) with
    | ok d =>
      rw [exec_drw_of_ok hd, exec_drw_of_ok (s := s.withHostInputs k b l n) (hrows.trans hd)]
      exact .next _
    | error c =>
      rw [exec_drw_of_error hd, exec_drw_of_error (s := s.withHostInputs k b l n) (hrows.trans hd)]
      exact .late _ c
  | _ =>
    exact .of_not_executed (by rw [hp]; rfl)

/-- Fetch reads pc and memory, so both runs fetch and decode the same. -/
theorem runCycle_withHostInputs (hp : s.params.profile = .source) :
    AgreeUpToInputs s k b l n (runCycle s) (runCycle (s.withHostInputs k b l n)) := by
  cases hfetch : s.fetch with
  | error c =>
    rw [runCycle_fetch_error hfetch, runCycle_fetch_error (s := s.withHostInputs k b l n) hfetch]
    exact .next _
  | ok w =>
    cases hdecode : decodeWord w with
    | unknown u =>
      rw [runCycle_unknown hfetch hdecode, runCycle_unknown (s := s.withHostInputs k b l n) hfetch hdecode]
      exact .next _
    | op i =>
      rw [runCycle_op hfetch hdecode, runCycle_op (s := s.withHostInputs k b l n) hfetch hdecode]
      exact exec_withHostInputs hp

/-- Under SOURCE the host makes no moves, so a step is a cycle from the state itself. -/
theorem step_withHostInputs (hp : s.params.profile = .source) :
    AgreeUpToInputs s k b l n (step s) (step (s.withHostInputs k b l n)) := by
  cases hs : s.status with
  | faulted r =>
    rw [step_faulted hs, step_faulted (s := s.withHostInputs k b l n) hs]
    exact .fault .halted
  | running =>
    rw [step_running hs, step_running (s := s.withHostInputs k b l n) hs, State.hostMoves_source hp,
      State.hostMoves_source (s := s.withHostInputs k b l n) hp]
    exact runCycle_withHostInputs hp

theorem AgreeUpToInputs.fault_eq {f : Fault} (h : AgreeUpToInputs s k b l n r r') (hr : r = .fault f) :
    r' = .fault f := by
  cases h with
  | fault g => exact hr
  | next t => cases hr
  | late i c => cases hr

/-- Both late faults record the same fault, and their machine does not run. -/
theorem AgreeUpToInputs.exists_next (h : AgreeUpToInputs s k b l n r r') (hr : r = .next t) :
    ∃ t', r' = .next t' ∧ t'.status = t.status ∧ (t.status = .running → t' = t.withHostInputs k b l n) := by
  cases h with
  | fault g => cases hr
  | next u =>
    cases hr
    exact ⟨_, rfl, rfl, fun _ => rfl⟩
  | late i c =>
    obtain ⟨t', ht'⟩ : ∃ t', raiseUnspecified i c (s.withHostInputs k b l n) = .next t' := ⟨_, rfl⟩
    refine ⟨t', ht', (raiseUnspecified_status ht').trans (raiseUnspecified_status hr).symm, fun hrun => ?_⟩
    simp [raiseUnspecified_status hr] at hrun

/-- Settles O57: the two steps agree up to the host's inputs. -/
theorem sourceIgnoresHostInputs : Obligations.SourceIgnoresHostInputs := by
  rintro s _ k b l n hp rfl
  have hagree : AgreeUpToInputs s k b l n (step s) (step (s.withHostInputs k b l n)) := step_withHostInputs hp
  exact ⟨fun _ => hagree.fault_eq, fun _ => hagree.exists_next⟩

end Sys2Proof.Machine
end
